-- ==== Sys2Proof/Word.lean ====
section
/-!
DEFINITION. Sys2Proof/Word.lean: the words the block carries, the voice numbers, and the binary64 value type.
SIDCORE has no addressable memory (spec/20_memory.md R60), so there is no address and no memory byte here.
-/

namespace Sys2Proof

/-- One command word (30_encoding.md R80, R81). -/
abbrev CmdWord := BitVec 32

/-- The KEY field of a command word, `w[31:24]` (R81). -/
abbrev Key := BitVec 8

/-- The VALUE field of a command word, `w[23:0]`: the operand of every command (R81, R82). -/
abbrev Operand := BitVec 24

/-- The voices, numbered 1, 2, 3 as in the key names (00_scope.md R17). -/
inductive VoiceId where
  | v1
  | v2
  | v3
deriving DecidableEq, Repr

/-- An IEEE 754 binary64 value (00_scope.md R13): not a number, an infinity, or a finite number with its sign, its
biased exponent (0 for the zeros and the subnormal numbers) and its 52 fraction bits.
There is ONE `nan`: the payload and the sign of a NaN are 'any value' (93_implementation_defined.md I8), so the model
gives a NaN no bits that a proof could read (log entry 4). Every term of this type is one binary64 value and
equal values are equal terms, but for the two zeros, which differ in `neg` as they do in binary64. -/
inductive F64 where
  | nan
  | inf (neg : Bool)
  | finite (neg : Bool) (bexp : Fin 2047) (frac : BitVec 52)
deriving DecidableEq, Repr, Inhabited

/-- Positive zero, `+0.0`. -/
abbrev F64.zero : F64 := .finite false 0 0#52

end Sys2Proof
end

