-- ==== Sys2Proof/Syntax.lean ====
section
/-!
DEFINITION. Sys2Proof/Syntax.lean: the commands (30_encoding.md R83; one constructor for each mnemonic of
spec/opcode_table.json). Every command carries its VALUE field: a write and SET_SR use it as operand, TICK and NOP
ignore it (R82) but a fault record holds the whole command word (60_exceptions.md R251), so it is not dropped.
-/

namespace Sys2Proof

inductive Instr where
  /-- `WR_FQ v`, voices 1 to 3 (R102). -/
  | wrFq1 (n : Operand)
  | wrFq2 (n : Operand)
  | wrFq3 (n : Operand)
  /-- `WR_PW v`, voices 1 to 3 (R103). -/
  | wrPw1 (n : Operand)
  | wrPw2 (n : Operand)
  | wrPw3 (n : Operand)
  /-- `WR_WG v`, voices 1 to 3 (R104). -/
  | wrWg1 (n : Operand)
  | wrWg2 (n : Operand)
  | wrWg3 (n : Operand)
  /-- `WR_AD v`, voices 1 to 3 (R105). -/
  | wrAd1 (n : Operand)
  | wrAd2 (n : Operand)
  | wrAd3 (n : Operand)
  /-- `WR_SR v`, voices 1 to 3 (R106). -/
  | wrSr1 (n : Operand)
  | wrSr2 (n : Operand)
  | wrSr3 (n : Operand)
  /-- `WR_CUTL` (R107). -/
  | wrCutl (n : Operand)
  /-- `WR_CUTH` (R108). -/
  | wrCuth (n : Operand)
  /-- `WR_RES` (R109). -/
  | wrRes (n : Operand)
  /-- `WR_TYPEVOL` (R110). -/
  | wrTypevol (n : Operand)
  /-- `SET_SR` (R112). -/
  | setSr (n : Operand)
  /-- `TICK` (44_tick.md R230); its VALUE is ignored. -/
  | tick (value : Operand)
  /-- `NOP`: every key R83 does not list (R86, R114). It keeps the key, so that one term stands for one word. -/
  | nop (key : Key) (value : Operand)
deriving DecidableEq, Repr

/-- The mnemonic of spec/opcode_table.json that a command belongs to. -/
def Instr.mnemonic : Instr → String
  | .wrFq1 _ => "wr.fq_1"
  | .wrFq2 _ => "wr.fq_2"
  | .wrFq3 _ => "wr.fq_3"
  | .wrPw1 _ => "wr.pw_1"
  | .wrPw2 _ => "wr.pw_2"
  | .wrPw3 _ => "wr.pw_3"
  | .wrWg1 _ => "wr.wg_1"
  | .wrWg2 _ => "wr.wg_2"
  | .wrWg3 _ => "wr.wg_3"
  | .wrAd1 _ => "wr.ad_1"
  | .wrAd2 _ => "wr.ad_2"
  | .wrAd3 _ => "wr.ad_3"
  | .wrSr1 _ => "wr.sr_1"
  | .wrSr2 _ => "wr.sr_2"
  | .wrSr3 _ => "wr.sr_3"
  | .wrCutl _ => "wr.cutl"
  | .wrCuth _ => "wr.cuth"
  | .wrRes _ => "wr.res"
  | .wrTypevol _ => "wr.typevol"
  | .setSr _ => "set.sr"
  | .tick _ => "tick"
  | .nop _ _ => "nop"

end Sys2Proof
end

