-- ==== Sys2Proof/WellFormed.lean ====
section
/-!
DEFINITION. Sys2Proof/WellFormed.lean: which terms of `Instr` are commands. An operand is right by its type (24 bits);
the one thing to check is that a `nop` holds a key that 30_encoding.md R83 does not list (R86).
-/

namespace Sys2Proof

/-- The keys that R83 lists for a command other than NOP. -/
def listedKeys : List Key :=
  [0x10#8, 0x11#8, 0x12#8, 0x13#8, 0x14#8, 0x20#8, 0x21#8, 0x22#8, 0x23#8, 0x24#8,
   0x30#8, 0x31#8, 0x32#8, 0x33#8, 0x34#8, 0x40#8, 0x41#8, 0x42#8, 0x43#8, 0x50#8, 0x80#8]

/-- A command is well formed unless it is a `nop` under a listed key. -/
def Instr.wf : Instr → Bool
  | .nop key _ => !listedKeys.contains key
  | .wrFq1 _ | .wrFq2 _ | .wrFq3 _ | .wrPw1 _ | .wrPw2 _ | .wrPw3 _ | .wrWg1 _ | .wrWg2 _ | .wrWg3 _ => true
  | .wrAd1 _ | .wrAd2 _ | .wrAd3 _ | .wrSr1 _ | .wrSr2 _ | .wrSr3 _ => true
  | .wrCutl _ | .wrCuth _ | .wrRes _ | .wrTypevol _ | .setSr _ | .tick _ => true

end Sys2Proof
end

