-- ==== Sys2Proof/Decode.lean ====
section
/-!
DEFINITION. Sys2Proof/Decode.lean: the decoder, total on 32-bit words (30_encoding.md R85, R87), and the encoder, each
written from the key map of R83 and the fields of R81.
-/

namespace Sys2Proof

/-- `KEY = w[31:24]` (R81). -/
def keyOf (w : CmdWord) : Key := w.extractLsb' 24 8

/-- `VALUE = w[23:0]` (R81), taken whole and unsigned (R82). -/
def valueOf (w : CmdWord) : Operand := w.extractLsb' 0 24

/-- The command a key selects, with its operand (R83); every other key is NOP (R86). -/
def decodeKey (key : Key) (n : Operand) : Instr :=
  if key = 0x10#8 then .wrFq1 n
  else if key = 0x20#8 then .wrFq2 n
  else if key = 0x30#8 then .wrFq3 n
  else if key = 0x11#8 then .wrPw1 n
  else if key = 0x21#8 then .wrPw2 n
  else if key = 0x31#8 then .wrPw3 n
  else if key = 0x12#8 then .wrWg1 n
  else if key = 0x22#8 then .wrWg2 n
  else if key = 0x32#8 then .wrWg3 n
  else if key = 0x13#8 then .wrAd1 n
  else if key = 0x23#8 then .wrAd2 n
  else if key = 0x33#8 then .wrAd3 n
  else if key = 0x14#8 then .wrSr1 n
  else if key = 0x24#8 then .wrSr2 n
  else if key = 0x34#8 then .wrSr3 n
  else if key = 0x40#8 then .wrCutl n
  else if key = 0x41#8 then .wrCuth n
  else if key = 0x42#8 then .wrRes n
  else if key = 0x43#8 then .wrTypevol n
  else if key = 0x50#8 then .setSr n
  else if key = 0x80#8 then .tick n
  else .nop key n

/-- The decoder reads KEY alone to select the command (R84). -/
def decode (w : CmdWord) : Instr := decodeKey (keyOf w) (valueOf w)

/-- A command word from its two fields (R81). -/
def wordOf (key : Key) (n : Operand) : CmdWord := key ++ n

/-- The word of a command, from R83's key map. -/
def encode : Instr → CmdWord
  | .wrFq1 n => wordOf 0x10#8 n
  | .wrPw1 n => wordOf 0x11#8 n
  | .wrWg1 n => wordOf 0x12#8 n
  | .wrAd1 n => wordOf 0x13#8 n
  | .wrSr1 n => wordOf 0x14#8 n
  | .wrFq2 n => wordOf 0x20#8 n
  | .wrPw2 n => wordOf 0x21#8 n
  | .wrWg2 n => wordOf 0x22#8 n
  | .wrAd2 n => wordOf 0x23#8 n
  | .wrSr2 n => wordOf 0x24#8 n
  | .wrFq3 n => wordOf 0x30#8 n
  | .wrPw3 n => wordOf 0x31#8 n
  | .wrWg3 n => wordOf 0x32#8 n
  | .wrAd3 n => wordOf 0x33#8 n
  | .wrSr3 n => wordOf 0x34#8 n
  | .wrCutl n => wordOf 0x40#8 n
  | .wrCuth n => wordOf 0x41#8 n
  | .wrRes n => wordOf 0x42#8 n
  | .wrTypevol n => wordOf 0x43#8 n
  | .setSr n => wordOf 0x50#8 n
  | .tick n => wordOf 0x80#8 n
  | .nop key n => wordOf key n

/-- The instruction of a word whose bits the opcode table numbers: a command is one 32-bit integer (R61, R80), so the
table's numbering is the word's own. More than 32 bits are no command word. -/
def decodeTableWord (nbits w : Nat) : Option Instr :=
  if nbits ≤ 32 then some (decode (BitVec.ofNat 32 (w % 2 ^ nbits))) else none

end Sys2Proof
end

