-- ==== Sys2Proof/Config.lean ====
section
/-!
DEFINITION. Sys2Proof/Config.lean: the instance parameters (00_scope.md R8 to R10), as plain data, and the two host
functions that no source gives (EXP and POW, 93_implementation_defined.md I6), as opaque constants.

A parameter that the spec makes a function or a table is held as a list of (argument, value) pairs: on a listed
argument it has the listed value, on every other argument the spec's default (Machine/Params.lean). Its arguments are
finite in number, so every function is such a list: a theorem about every `Config` holds for every choice of the
parameter. The values themselves, the defaults and how a list is read stand in Machine/Params.lean.
-/

namespace Sys2Proof

/-- `CHIP_MODEL` (R9). -/
inductive ChipModel where
  | mos6581
  | mos8580
deriving DecidableEq, Repr

/-- `SYNC_SOURCE` (42_oscillator.md R163). -/
inductive SyncSource where
  | observed
  | predecessor
deriving DecidableEq, Repr

/-- The arguments of `COMBINE` (R183). -/
structure CombineArgs where
  model   : ChipModel
  wf      : BitVec 4
  tri16   : BitVec 16
  saw16   : BitVec 16
  pulse16 : BitVec 16
deriving DecidableEq, Repr

/-- The arguments of `PULSE_SHAPE(s, thr, step)` (R181). -/
structure PulseArgs where
  s    : BitVec 16
  thr  : BitVec 16
  step : BitVec 24
deriving DecidableEq, Repr

/-- The arguments of `CUTOFF_COEF(CHIP_MODEL, P.cutL[2:0], P.cutH, S)` (R204, R211): of S the derived constants of R24 (log entry 15). -/
structure CutoffArgs where
  model      : ChipModel
  cutL       : BitVec 3
  cutH       : BitVec 8
  sampleRate : BitVec 24
  ratioFx    : Nat
  kc6581     : F64
  kc8580     : F64
deriving DecidableEq, Repr

/-- The parameters of one instance, fixed for its life (R9, R32: no command changes one). -/
structure Config where
  /-- `CHIP_CLOCK` in Hz, OPEN (R8). -/
  chipClock      : Nat
  /-- `CHIP_MODEL` (R9). -/
  chipModel      : ChipModel
  /-- `RATIO_FRAC_BITS` (R24). -/
  ratioFracBits  : Nat
  /-- `RATE_PERIOD[0..15]` where it differs from R134's default. -/
  ratePeriod     : List (BitVec 4 × Nat)
  /-- `EXP_PERIOD[0..255]` where it differs from R135's default. -/
  expPeriod      : List (BitVec 8 × Nat)
  /-- `SYNC_SOURCE` (R163). -/
  syncSource     : SyncSource
  /-- `NOISE_STEP_LIMIT` (R170). -/
  noiseStepLimit : Nat
  /-- `LFSR_SEED` (R273). -/
  lfsrSeed       : BitVec 23
  /-- `SAW_SHAPE(a16, step)` where it differs from R180's default. -/
  sawShape       : List ((BitVec 16 × BitVec 24) × BitVec 16)
  /-- `PULSE_SHAPE` where it differs from R181's default. -/
  pulseShape     : List (PulseArgs × BitVec 16)
  /-- `COMBINE` where it differs from R183's default. -/
  combine        : List (CombineArgs × BitVec 16)
  /-- `KC(n)`, the pair (kc6581, kc8580) at a sample rate, where it differs from R203's default. -/
  cutoffRatio    : List (BitVec 24 × (F64 × F64))
  /-- `CUTOFF_COEF` where it differs from R204's default. -/
  cutoffCoef     : List (CutoffArgs × F64)
  /-- `RESONANCE_COEF(RESN)` where it differs from R205's default. -/
  resonanceCoef  : List (BitVec 4 × F64)
  /-- Values of the host's `EXP` that are known; every other is `Config.hostExp` (I6). -/
  expKnown       : List (F64 × F64)
  /-- Values of the host's `POW` that are known; every other is `Config.hostPow` (I6). -/
  powKnown       : List ((F64 × F64) × F64)
  /-- `OUTPUT_SCALE` (R209). -/
  outputScale    : Nat
  /-- `NCH`, the host's channel count (60_exceptions.md R264). -/
  nch            : Nat
deriving DecidableEq, Repr

/-- The host's binary64 exponential function: no source fixes its values (R204, I6), so it has no body that a proof
could use (log entry 3). -/
opaque Config.hostExp : F64 → F64

/-- The host's binary64 power function, likewise (R205, I6). -/
opaque Config.hostPow : F64 → F64 → F64

end Sys2Proof
end

