-- ==== Sys2Proof/Machine/Binary64.lean ====
section
/-!
DEFINITION. Sys2Proof/Machine/Binary64.lean: binary64 arithmetic, each operation computed exactly and then rounded
once to nearest, ties to even (00_scope.md R13; 93_implementation_defined.md I8).

Every finite binary64 number is a whole number of UNITS of 2^-1074, so an exact sum is an integer number of units, and
an exact product or quotient a ratio of two integers in units: one rounding function serves every operation.
-/

namespace Sys2Proof

/-- The number 1.0 in units. Irreducible, so that no tactic writes its 324 digits out; the kernel evaluates it. -/
@[irreducible] def F64.oneUnits : Nat := 2 ^ 1074

/-- The magnitude of a finite number, in units of 2^-1074. -/
def F64.units (bexp : Fin 2047) (frac : BitVec 52) : Nat :=
  if bexp.val = 0 then frac.toNat else (2 ^ 52 + frac.toNat) * 2 ^ (bexp.val - 1)

/-- A finite number with its sign, in units of 2^-1074. -/
def F64.signedUnits (neg : Bool) (bexp : Fin 2047) (frac : BitVec 52) : Int :=
  if neg then -(F64.units bexp frac : Int) else (F64.units bexp frac : Int)

/-- `n / d` rounded to the nearest integer, a tie to the even one. -/
def roundHalfEven (n d : Nat) : Nat :=
  if 2 * (n % d) < d then n / d
  else if d < 2 * (n % d) then n / d + 1
  else if n / d % 2 = 0 then n / d
  else n / d + 1

/-- The number whose exponent field and fraction field, read as one integer, are `bits`; past the largest finite one
it is an infinity. -/
def F64.ofMagnitude (neg : Bool) (bits : Nat) : F64 :=
  if h : bits / 2 ^ 52 < 2047 then .finite neg ⟨bits / 2 ^ 52, h⟩ (BitVec.ofNat 52 bits) else .inf neg

/-- How many low bits of the quotient `num / den` (in units) lie below the 53 significant ones. -/
def F64.dropBits (num den : Nat) : Nat := (num / den).log2 - 52

/-- The binary64 number nearest to `num / den` units, ties to even; `den` is positive. -/
def F64.ofQuotient (neg : Bool) (num den : Nat) : F64 :=
  F64.ofMagnitude neg
    (F64.dropBits num den * 2 ^ 52 + roundHalfEven num (den * 2 ^ F64.dropBits num den))

/-- `toF(n)` (R13). -/
def F64.ofInt (n : Int) : F64 := F64.ofQuotient (decide (n < 0)) (n.natAbs * F64.oneUnits) 1

/-- A decimal literal of the spec, `num / den`, as the nearest binary64 number (log entry 5). -/
def F64.lit (num den : Nat) : F64 := F64.ofQuotient false (num * F64.oneUnits) den

def F64.isZero : F64 → Bool
  | .finite _ bexp frac => F64.units bexp frac == 0
  | _ => false

def F64.neg : F64 → F64
  | .nan => .nan
  | .inf s => .inf !s
  | .finite s e f => .finite (!s) e f

/-- `fl(x + y)`. An exact zero sum is `-0.0` only when both operands are. -/
def F64.add : F64 → F64 → F64
  | .nan, _ => .nan
  | _, .nan => .nan
  | .inf s, .inf t => if s = t then .inf s else .nan
  | .inf s, .finite _ _ _ => .inf s
  | .finite _ _ _, .inf t => .inf t
  | .finite s e f, .finite t e' f' =>
    let sum := F64.signedUnits s e f + F64.signedUnits t e' f'
    if sum = 0 then .finite (s && t) 0 0#52 else F64.ofQuotient (decide (sum < 0)) sum.natAbs 1

/-- `fl(x - y)`. -/
def F64.sub (x y : F64) : F64 := F64.add x (F64.neg y)

/-- `fl(x * y)`. -/
def F64.mul : F64 → F64 → F64
  | .nan, _ => .nan
  | _, .nan => .nan
  | .inf s, .inf t => .inf (s ^^ t)
  | .inf s, .finite t e f => if F64.units e f = 0 then .nan else .inf (s ^^ t)
  | .finite s e f, .inf t => if F64.units e f = 0 then .nan else .inf (s ^^ t)
  | .finite s e f, .finite t e' f' =>
    F64.ofQuotient (s ^^ t) (F64.units e f * F64.units e' f') F64.oneUnits

/-- `fl(x / y)`. -/
def F64.div : F64 → F64 → F64
  | .nan, _ => .nan
  | _, .nan => .nan
  | .inf _, .inf _ => .nan
  | .inf s, .finite t _ _ => .inf (s ^^ t)
  | .finite s _ _, .inf t => .finite (s ^^ t) 0 0#52
  | .finite s e f, .finite t e' f' =>
    if F64.units e' f' = 0 then (if F64.units e f = 0 then .nan else .inf (s ^^ t))
    else F64.ofQuotient (s ^^ t) (F64.units e f * F64.oneUnits) (F64.units e' f')

/-- `x < y`; false when either is a NaN. -/
def F64.lt : F64 → F64 → Bool
  | .nan, _ => false
  | _, .nan => false
  | .inf s, .inf t => s && !t
  | .inf s, .finite _ _ _ => s
  | .finite _ _ _, .inf t => !t
  | .finite s e f, .finite t e' f' => decide (F64.signedUnits s e f < F64.signedUnits t e' f')

/-- The value of a 64-bit pattern; every NaN pattern is the one `nan`. -/
def F64.ofBits (b : BitVec 64) : F64 :=
  if h : (b.extractLsb' 52 11).toNat < 2047 then
    .finite (b.getLsbD 63) ⟨(b.extractLsb' 52 11).toNat, h⟩ (b.extractLsb' 0 52)
  else if b.extractLsb' 0 52 = 0#52 then .inf (b.getLsbD 63)
  else .nan

/-- The bits of a value that has bits of its own: not of a NaN, whose sign and payload may be anything (I8). -/
def F64.toBits? : F64 → Option (BitVec 64)
  | .nan => none
  | .inf s => some (BitVec.ofBool s ++ (2047#11 ++ 0#52))
  | .finite s e f => some (BitVec.ofBool s ++ (BitVec.ofNat 11 e.val ++ f))

end Sys2Proof
end

