-- ==== Sys2Proof/Machine/Params.lean ====
section
/-!
DEFINITION. Sys2Proof/Machine/Params.lean: the values of the instance parameters: how a parameter list is read, the
spec's default of each, which parameter values are legal, and the constants derived from the sample rate (10_state.md R24).
-/

namespace Sys2Proof.Machine

open Sys2Proof

/-- A function parameter: the listed value on a listed argument, the default elsewhere. -/
def lookupOr {α β : Type} [DecidableEq α] (dflt : α → β) : List (α × β) → α → β
  | [], a => dflt a
  | (k, b) :: rest, a => if a = k then b else lookupOr dflt rest a

/-! ### The envelope tables -/

/-- The default `RATE_PERIOD` in chip-clock cycles (R134). -/
def defaultRatePeriod (idx : BitVec 4) : Nat :=
  [9, 32, 63, 95, 149, 220, 267, 313, 392, 977, 1954, 3126, 3907, 11720, 19532, 31251].getD idx.toNat 1

/-- The default `EXP_PERIOD`, as runs of levels (R135). -/
def defaultExpPeriod (level : BitVec 8) : Nat :=
  if level.toNat = 0x00 then 1
  else if level.toNat ≤ 0x06 then 30
  else if level.toNat ≤ 0x0E then 16
  else if level.toNat ≤ 0x1A then 8
  else if level.toNat ≤ 0x36 then 4
  else if level.toNat ≤ 0x5D then 2
  else 1

def ratePeriod (c : Config) (idx : BitVec 4) : Nat := lookupOr defaultRatePeriod c.ratePeriod idx

def expPeriod (c : Config) (level : BitVec 8) : Nat := lookupOr defaultExpPeriod c.expPeriod level

/-! ### The oscillator's parameters -/

/-- `SYNC_SOURCE(v)` (R163). -/
def syncSource (c : Config) (v : VoiceId) : VoiceId :=
  match c.syncSource, v with
  | .observed, _ => .v1
  | .predecessor, .v1 => .v3
  | .predecessor, .v2 => .v1
  | .predecessor, .v3 => .v2

/-- The default `SAW_SHAPE`: no correction (R180). -/
def defaultSawShape (a : BitVec 16 × BitVec 24) : BitVec 16 := a.1

/-- The default `PULSE_SHAPE`: a hard edge, high at or above the threshold (R181). -/
def defaultPulseShape (a : PulseArgs) : BitVec 16 :=
  if a.thr.toNat ≤ a.s.toNat then 0xFFFF#16 else 0#16

/-- The default `COMBINE`: the AND of the selected components, low four bits cleared (R183). -/
def defaultCombine (a : CombineArgs) : BitVec 16 :=
  ((if a.wf.getLsbD 0 then a.tri16 else 0xFFFF#16) &&&
   (if a.wf.getLsbD 1 then a.saw16 else 0xFFFF#16) &&&
   (if a.wf.getLsbD 2 then a.pulse16 else 0xFFFF#16)) &&& 0xFFF0#16

def sawShape (c : Config) (a16 : BitVec 16) (step : BitVec 24) : BitVec 16 :=
  lookupOr defaultSawShape c.sawShape (a16, step)

def pulseShape (c : Config) (s thr : BitVec 16) (step : BitVec 24) : BitVec 16 :=
  lookupOr defaultPulseShape c.pulseShape ⟨s, thr, step⟩

def combine (c : Config) (wf : BitVec 4) (tri16 saw16 pulse16 : BitVec 16) : BitVec 16 :=
  lookupOr defaultCombine c.combine ⟨c.chipModel, wf, tri16, saw16, pulse16⟩

/-! ### The filter's parameters -/

/-- The host's `EXP` (R204, I6). -/
def hostExp (c : Config) (x : F64) : F64 := lookupOr Config.hostExp c.expKnown x

/-- The host's `POW` (R205, I6). -/
def hostPow (c : Config) (x y : F64) : F64 :=
  lookupOr (fun a : F64 × F64 => Config.hostPow a.1 a.2) c.powKnown (x, y)

/-- The numerator `(-2.0 × 3.14) × (k / 256.0)` of R203's constants. -/
def ratioNumerator (k : Int) : F64 :=
  F64.mul (F64.mul (F64.ofInt (-2)) (F64.lit 314 100)) (F64.div (F64.ofInt k) (F64.ofInt 256))

/-- The default `KC(n)`: the pair (kc6581, kc8580) (R203). -/
def defaultCutoffRatio (rate : BitVec 24) : F64 × F64 :=
  (F64.div (ratioNumerator 20000) (F64.ofInt rate.toNat), F64.div (ratioNumerator 12500) (F64.ofInt rate.toNat))

/-- `KC(n)`: the pair (kc6581, kc8580) (R112, R203). -/
def cutoffRatio (c : Config) (rate : BitVec 24) : F64 × F64 := lookupOr defaultCutoffRatio c.cutoffRatio rate

/-- `x = fl(toF(P.cutL[2:0]) / 8.0 + toF(P.cutH) + 0.2)` (R202). -/
def cutoffX (a : CutoffArgs) : F64 :=
  F64.add (F64.add (F64.div (F64.ofInt a.cutL.toNat) (F64.ofInt 8)) (F64.ofInt a.cutH.toNat)) (F64.lit 2 10)

/-- The default `CUTOFF_COEF` (R204). -/
def defaultCutoffCoef (c : Config) (a : CutoffArgs) : F64 :=
  match a.model with
  | .mos8580 => F64.sub (F64.ofInt 1) (hostExp c (F64.mul (cutoffX a) a.kc8580))
  | .mos6581 =>
    if F64.lt (cutoffX a) (F64.ofInt 24) then F64.lit 35 1000
    else F64.sub (F64.ofInt 1)
      (F64.mul (F64.lit 1263 1000) (hostExp c (F64.mul (cutoffX a) a.kc6581)))

def cutoffCoef (c : Config) (a : CutoffArgs) : F64 := lookupOr (defaultCutoffCoef c) c.cutoffCoef a

/-- The default `RESONANCE_COEF`: `POW(2.0, fl(toF(4 - RESN) / 8.0))` (R205). -/
def defaultResonanceCoef (c : Config) (resn : BitVec 4) : F64 :=
  hostPow c (F64.ofInt 2) (F64.div (F64.ofInt (4 - (resn.toNat : Int))) (F64.ofInt 8))

def resonanceCoef (c : Config) (resn : BitVec 4) : F64 := lookupOr (defaultResonanceCoef c) c.resonanceCoef resn

/-! ### Derived constants, the default instance and the legal instances -/

/-- `ratio_fx = (CHIP_CLOCK << RATIO_FRAC_BITS) div sampleRate` (R24). -/
def clockRatio (c : Config) (rate : BitVec 24) : Nat := c.chipClock * 2 ^ c.ratioFracBits / rate.toNat

/-- The modulus of the rate counter, `0x8000 << RATIO_FRAC_BITS` (R137). -/
def rcModulus (c : Config) : Nat := 0x8000 * 2 ^ c.ratioFracBits

/-- The spec's defaults for every parameter that has one (R9, R24, R134, R135, R163, R170, R180, R181, R183, R203 to
R205, R209, R273), under a chip clock and a channel count, which have none. -/
def defaultConfig (chipClock nch : Nat) : Config where
  chipClock      := chipClock
  chipModel      := .mos8580
  ratioFracBits  := 16
  ratePeriod     := []
  expPeriod      := []
  syncSource     := .observed
  noiseStepLimit := 0x100000
  lfsrSeed       := 0x7FFFF8#23
  sawShape       := []
  pulseShape     := []
  combine        := []
  cutoffRatio    := []
  cutoffCoef     := []
  resonanceCoef  := []
  expKnown       := []
  powKnown       := []
  outputScale    := 1474560
  nch            := nch

/-- The parameter values the spec allows: a positive clock below 2^32 (R8, 92 D6), rate periods in 1..0x7FFF (R134),
prescaler periods in 1..255 (R135), a seed that is not 0 (R273), a positive scale that `toF` converts exactly (R13, R209)
and at least one channel (92 D39; log entry 14). -/
def configWf (c : Config) : Bool :=
  decide (0 < c.chipClock) && decide (c.chipClock < 2 ^ 32) &&
  c.ratePeriod.all (fun e => decide (1 ≤ e.2) && decide (e.2 ≤ 0x7FFF)) &&
  c.expPeriod.all (fun e => decide (1 ≤ e.2) && decide (e.2 ≤ 255)) &&
  decide (c.lfsrSeed ≠ 0#23) &&
  decide (0 < c.outputScale) && decide (c.outputScale < 2 ^ 53) &&
  decide (1 ≤ c.nch)

end Sys2Proof.Machine
end

