-- ==== Sys2Proof/Machine/Blocks.lean ====
section
/-!
DEFINITION. Sys2Proof/Machine/Blocks.lean: the parts of the state (P, V, F, S of 10_state.md), each as plain data with
its reset value (70_reset_and_hazards.md R272), and the fault record (60_exceptions.md R251).
-/

namespace Sys2Proof.Machine

open Sys2Proof

/-- The parameter registers of one voice (R21). -/
structure VoiceRegs where
  fq : BitVec 16
  pw : BitVec 12
  wg : BitVec 8
  ad : BitVec 8
  sr : BitVec 8
deriving DecidableEq, Repr

/-- The parameter registers P (R21). -/
structure Params where
  r1      : VoiceRegs
  r2      : VoiceRegs
  r3      : VoiceRegs
  cutL    : BitVec 8
  cutH    : BitVec 8
  res     : BitVec 8
  typeVol : BitVec 8
deriving DecidableEq, Repr

/-- The state of one voice (R26). -/
structure VoiceState where
  acc       : BitVec 24
  prevAcc   : BitVec 24
  env       : BitVec 8
  gateF     : Bool
  attackF   : Bool
  dsF       : Bool
  holdzeroF : Bool
  /-- The rate counter, `15 + RATIO_FRAC_BITS` bits wide: below `rcModulus` (R26, R30). -/
  rc        : Nat
  expcnt    : BitVec 8
  prevSr    : BitVec 8
  lfsr      : BitVec 23
  prevWf    : BitVec 16
  prevGate  : Bool
  out       : BitVec 16
deriving DecidableEq, Repr

/-- V[1..3]. -/
structure Voices where
  v1 : VoiceState
  v2 : VoiceState
  v3 : VoiceState
deriving DecidableEq, Repr

/-- The filter state F (R28). -/
structure FilterState where
  lp : F64
  bp : F64
deriving DecidableEq, Repr

/-- The two configuration errors (R251). -/
inductive ConfigError where
  | sampleRateNotPositive
  | notInitialized
deriving DecidableEq, Repr

/-- The cause codes of R251. -/
def ConfigError.code : ConfigError → Nat
  | .sampleRateNotPositive => 1
  | .notInitialized => 2

/-- What R251's column 'recorded' holds: the command word, or `reset`. -/
inductive FaultSite where
  | command (w : CmdWord)
  | reset
deriving DecidableEq, Repr

structure FaultRecord where
  cause : ConfigError
  site  : FaultSite
deriving DecidableEq, Repr

/-- The engine state S (R24, R29). -/
structure EngineState where
  sampleRate : BitVec 24
  ratioFx    : Nat
  kc6581     : F64
  kc8580     : F64
  frame      : Nat
  init       : Bool
  fault      : Option FaultRecord
deriving DecidableEq, Repr

/-- What one TICK gives the host: its sample (R235), and whether it signalled a FrameMarker (R236). -/
structure TickOutput where
  y      : F64
  marker : Bool
deriving DecidableEq, Repr

/-! ### Reset values (R272) -/

def VoiceRegs.zero : VoiceRegs := ⟨0#16, 0#12, 0#8, 0#8, 0#8⟩

def Params.zero : Params := ⟨.zero, .zero, .zero, 0#8, 0#8, 0#8, 0#8⟩

def resetVoice (c : Config) : VoiceState where
  acc       := 0#24
  prevAcc   := 0#24
  env       := 0#8
  gateF     := false
  attackF   := false
  dsF       := false
  holdzeroF := false
  rc        := 0
  expcnt    := 0#8
  prevSr    := 0#8
  lfsr      := c.lfsrSeed
  prevWf    := 0#16
  prevGate  := false
  out       := 0#16

def resetVoices (c : Config) : Voices := ⟨resetVoice c, resetVoice c, resetVoice c⟩

def FilterState.zero : FilterState := ⟨F64.zero, F64.zero⟩

/-- S with the constants of a sample rate, as SET_SR computes them (R112, R272). -/
def EngineState.withRate (c : Config) (rate : BitVec 24) (e : EngineState) : EngineState :=
  { e with
    sampleRate := rate
    ratioFx    := clockRatio c rate
    kc6581     := (cutoffRatio c rate).1
    kc8580     := (cutoffRatio c rate).2 }

/-- S before any reset: `S.init = 0` (R251, 95 T-FAULT-1); the other values are the model's (log entry 8). -/
def EngineState.powerOn : EngineState := ⟨0#24, 0, F64.zero, F64.zero, 0, false, none⟩

def resetEngine (c : Config) (rate : BitVec 24) : EngineState :=
  { EngineState.powerOn.withRate c rate with frame := 0, init := true, fault := none }

/-- S when a reset is given `INIT_SAMPLE_RATE = 0`: the fault is recorded and `S.init` is 0 (R271, I13). -/
def EngineState.resetFailed (e : EngineState) : EngineState :=
  { e with init := false, fault := some ⟨.sampleRateNotPositive, .reset⟩ }

end Sys2Proof.Machine
end

