-- ==== Sys2Proof/Machine/Operands.lean ====
section
/-!
DEFINITION. Sys2Proof/Machine/Operands.lean: the one operand form, an unsigned VALUE masked to its register's width
(30_encoding.md R82, 40_parameter_writes.md R101), and the fields of the parameter registers (10_state.md R22, R23, R25; log entry 12).
-/

namespace Sys2Proof.Machine

open Sys2Proof

/-- What a write of `n` to a register `W` bits wide stores: `n mod 2^W` (R101). -/
def maskTo (W : Nat) (n : Operand) : BitVec W := n.setWidth W

/-! ### `P.wg[v]`, `P.ad[v]`, `P.sr[v]` (R22, R23) -/

def gateBit (r : VoiceRegs) : Bool := r.wg.getLsbD 0
def syncBit (r : VoiceRegs) : Bool := r.wg.getLsbD 1
def ringBit (r : VoiceRegs) : Bool := r.wg.getLsbD 2
def testBit (r : VoiceRegs) : Bool := r.wg.getLsbD 3

/-- `WF(v) = P.wg[v][7:4]`: TRI, SAW, PULSE, NOISE from bit 0 up. -/
def waveField (r : VoiceRegs) : BitVec 4 := r.wg.extractLsb' 4 4

def attackNibble (r : VoiceRegs) : BitVec 4 := r.ad.extractLsb' 4 4
def decayNibble (r : VoiceRegs) : BitVec 4 := r.ad.extractLsb' 0 4
def sustainNibble (r : VoiceRegs) : BitVec 4 := r.sr.extractLsb' 4 4
def releaseNibble (r : VoiceRegs) : BitVec 4 := r.sr.extractLsb' 0 4

/-! ### The global registers (R25) -/

/-- `P.cutL[2:0]`, the only bits of cutoff-low that are read (R107). -/
def cutLow (p : Params) : BitVec 3 := p.cutL.extractLsb' 0 3

/-- `CUT11 = {P.cutH[7:0], P.cutL[2:0]}`. -/
def cut11 (p : Params) : BitVec 11 := p.cutH ++ cutLow p

/-- `RESN = P.res[7:4]`. -/
def resNibble (p : Params) : BitVec 4 := p.res.extractLsb' 4 4

/-- `ROUTE(v) = P.res[v-1]`. -/
def routeBit (p : Params) : VoiceId → Bool
  | .v1 => p.res.getLsbD 0
  | .v2 => p.res.getLsbD 1
  | .v3 => p.res.getLsbD 2

/-- `VOL = P.typeVol[3:0]`. -/
def volume (p : Params) : BitVec 4 := p.typeVol.extractLsb' 0 4
def lpBit (p : Params) : Bool := p.typeVol.getLsbD 4
def bpBit (p : Params) : Bool := p.typeVol.getLsbD 5
def hpBit (p : Params) : Bool := p.typeVol.getLsbD 6
def voice3Off (p : Params) : Bool := p.typeVol.getLsbD 7

end Sys2Proof.Machine
end

