-- ==== Sys2Proof/Machine/State.lean ====
section
/-!
DEFINITION. Sys2Proof/Machine/State.lean: the whole state of one instance as plain data, the reasons a step can stop,
and the machine right after reset.
-/

namespace Sys2Proof.Machine

open Sys2Proof

/-- Why the machine stops. -/
inductive Fault where
  /-- Raised by `step` alone, when `S.fault` holds a record: the run has ended with that configuration error and no
  later command is applied (60_exceptions.md R252). Safe: the spec itself ends the run there. -/
  | configError (cause : ConfigError)
deriving DecidableEq, Repr

/-- Why an instruction has no meaning. -/
inductive Refusal where
  /-- Raised by an arm of `exec` whose instruction has no meaning yet; no arm of this model does. Safe: the machine
  stops where the hardware would go on. -/
  | notModelled (mnemonic : String)
deriving DecidableEq, Repr

/-- One SIDCORE instance: the tuple (P, V[1..3], F, S) of 10_state.md; the instance parameters, which no command
changes (R32; log entry 1); the command stream that the host has sent and the block has not yet consumed (R66, R91, 92 D42);
and what the block has given the host, the latest TICK first (R33; log entry 13). -/
structure State where
  cfg     : Config
  params  : Params
  voices  : Voices
  filter  : FilterState
  engine  : EngineState
  stream  : List CmdWord
  outputs : List TickOutput
deriving DecidableEq, Repr

/-- An instance before any reset (S.init = 0; 95 T-FAULT-1; log entry 8). -/
def State.powerOn (c : Config) : State :=
  ⟨c, Params.zero, resetVoices c, FilterState.zero, EngineState.powerOn, [], []⟩

/-- Reset with an `INIT_SAMPLE_RATE` (R270 to R272). A rate of 0 records the fault and leaves `S.init = 0`. -/
def State.resetWith (c : Config) (rate : BitVec 24) : State :=
  if rate = 0#24 then { State.powerOn c with engine := EngineState.powerOn.resetFailed }
  else ⟨c, Params.zero, resetVoices c, FilterState.zero, resetEngine c rate, [], []⟩

/-- The machine right after reset, of the instance the spec calls TC1 (95_test_vectors.md): its clock, its initial
sample rate and its channel count are open in the spec and chosen here (log entry 2); no command is pending. -/
def State.reset : State := State.resetWith (defaultConfig 1000000 1) 1000000#24

end Sys2Proof.Machine
end

