-- ==== Sys2Proof/Machine/Ops.lean ====
section
/-!
DEFINITION. Sys2Proof/Machine/Ops.lean: the named operations over the state that every meaning goes through: reading
and writing a voice's registers and state, taking the next command of the stream, recording a fault (the block's only
exception; it has no handler and no return, 60_exceptions.md R254), delivering a sample, and the host's actions (R260).
-/

namespace Sys2Proof.Machine

open Sys2Proof

/-! ### Voices -/

def Params.regs (p : Params) : VoiceId → VoiceRegs
  | .v1 => p.r1
  | .v2 => p.r2
  | .v3 => p.r3

def Params.setRegs (p : Params) (r : VoiceRegs) : VoiceId → Params
  | .v1 => { p with r1 := r }
  | .v2 => { p with r2 := r }
  | .v3 => { p with r3 := r }

def Voices.get (vs : Voices) : VoiceId → VoiceState
  | .v1 => vs.v1
  | .v2 => vs.v2
  | .v3 => vs.v3

def Voices.set (vs : Voices) (v : VoiceState) : VoiceId → Voices
  | .v1 => { vs with v1 := v }
  | .v2 => { vs with v2 := v }
  | .v3 => { vs with v3 := v }

/-! ### Register writes: the whole register, masked, and nothing else (R100, R101) -/

def setParams (p : Params) (s : State) : State := { s with params := p }

def writeFq (id : VoiceId) (n : Operand) (s : State) : State :=
  setParams (s.params.setRegs { s.params.regs id with fq := maskTo 16 n } id) s

def writePw (id : VoiceId) (n : Operand) (s : State) : State :=
  setParams (s.params.setRegs { s.params.regs id with pw := maskTo 12 n } id) s

def writeWg (id : VoiceId) (n : Operand) (s : State) : State :=
  setParams (s.params.setRegs { s.params.regs id with wg := maskTo 8 n } id) s

def writeAd (id : VoiceId) (n : Operand) (s : State) : State :=
  setParams (s.params.setRegs { s.params.regs id with ad := maskTo 8 n } id) s

def writeSr (id : VoiceId) (n : Operand) (s : State) : State :=
  setParams (s.params.setRegs { s.params.regs id with sr := maskTo 8 n } id) s

def writeCutL (n : Operand) (s : State) : State := setParams { s.params with cutL := maskTo 8 n } s
def writeCutH (n : Operand) (s : State) : State := setParams { s.params with cutH := maskTo 8 n } s
def writeRes (n : Operand) (s : State) : State := setParams { s.params with res := maskTo 8 n } s
def writeTypeVol (n : Operand) (s : State) : State := setParams { s.params with typeVol := maskTo 8 n } s

/-! ### The sample rate, faults, output, the command stream -/

def setEngine (e : EngineState) (s : State) : State := { s with engine := e }

/-- The constants of a sample rate, recomputed together; no other state changes (R24, R112). -/
def setSampleRate (rate : BitVec 24) (s : State) : State := setEngine (s.engine.withRate s.cfg rate) s

/-- TAKING A FAULT, the block's only exception: a ConfigError is recorded in `S.fault` with the command word, and
nothing else changes, since faults are precise (R251, R252; log entry 11). The run then ends (Step.lean). -/
def raiseConfigError (cause : ConfigError) (w : CmdWord) (s : State) : State :=
  setEngine { s.engine with fault := some ⟨cause, .command w⟩ } s

/-- `emit(y)` (R235), with the FrameMarker of the same TICK when it was signalled (R236). -/
def emit (y : F64) (marker : Bool) (s : State) : State :=
  { s with outputs := ⟨y, marker⟩ :: s.outputs }

/-- What a host channel receives of a TICK's output: the same `y` on each of the `NCH` channels (R264). -/
def TickOutput.channel (c : Config) (o : TickOutput) (k : Nat) : Option F64 :=
  if k < c.nch then some o.y else none

/-- The next command of the stream, consumed (R91); none when none is pending. -/
def fetch (s : State) : Option (CmdWord × State) :=
  match s.stream with
  | [] => none
  | w :: rest => some (w, { s with stream := rest })

/-! ### The host's actions (R260): commands join the end of the stream, a reset makes the instance anew -/

def hostSend (ws : List CmdWord) (s : State) : State := { s with stream := s.stream ++ ws }

/-- Construction or re-initialisation with new parameters and a new `INIT_SAMPLE_RATE` (R260, R271): every field of
(P, V, F, S) is reset, or, at a rate of 0, the fault is recorded, `S.init` is 0 and nothing else changes: no new parameter
is taken, so that every field keeps its bound of R30 under the parameters that stand. The commands still pending and the
samples the host already has stay (log entry 9). -/
def hostReset (c : Config) (rate : BitVec 24) (s : State) : State :=
  if rate = 0#24 then setEngine s.engine.resetFailed s
  else { State.resetWith c rate with stream := s.stream, outputs := s.outputs }

end Sys2Proof.Machine
end

