-- ==== Sys2Proof/Machine/Rate.lean ====
section
/-!
DEFINITION. Sys2Proof/Machine/Rate.lean: the meaning of SET_SR (40_parameter_writes.md R112, R113).
-/

namespace Sys2Proof.Machine

open Sys2Proof

/-- `SET_SR n` (R112): a rate of 0 raises ConfigError(SampleRateNotPositive) and applies nothing (R113); any other
recomputes the sample rate's constants and nothing else, before a reset as after it (log entry 16). -/
def execSetSr (n : Operand) (s : State) : Host.Outcome State Fault Refusal :=
  if n = 0#24 then .next (raiseConfigError .sampleRateNotPositive (wordOf 0x50#8 n) s)
  else .next (setSampleRate n s)

end Sys2Proof.Machine
end

