-- ==== Sys2Proof/Machine/Flags.lean ====
section
/-!
DEFINITION. Sys2Proof/Machine/Flags.lean: the envelope flags {gate, attack, decay-sustain, hold-zero} (10_state.md R27):
every rule that writes one of them (41_envelope.md R131, R142, R144).
-/

namespace Sys2Proof.Machine

open Sys2Proof

/-- The GATE bit is 1 and was 0 at the previous TICK (R131). -/
def gateRises (r : VoiceRegs) (v : VoiceState) : Bool := gateBit r && !v.prevGate

/-- The GATE bit is 0 and was 1 at the previous TICK (R131). -/
def gateFalls (r : VoiceRegs) (v : VoiceState) : Bool := !gateBit r && v.prevGate

/-- Gate-edge detection (R131): the flags after an edge, and `prev_gate`; the level is not changed. -/
def gateEdge (r : VoiceRegs) (v : VoiceState) : VoiceState :=
  if gateRises r v then
    { v with gateF := true, attackF := true, dsF := true, holdzeroF := false, prevGate := gateBit r }
  else if gateFalls r v then
    { v with gateF := false, attackF := false, dsF := false, prevGate := gateBit r }
  else { v with prevGate := gateBit r }

/-- End of attack (R142): the attack flag after an attack step that left the level at `env`. -/
def attackAfter (env : BitVec 8) : Bool := decide (env ≠ 255#8)

/-- Hold-zero is set by a decrement that takes the level from above 0 to exactly 0, and is otherwise kept (R144). -/
def holdzeroAfter (before after : BitVec 8) (holdzero : Bool) : Bool :=
  holdzero || (decide (before ≠ 0#8) && decide (after = 0#8))

/-- The envelope state names of R27. -/
inductive EnvPhase where
  | offRelease
  | attack
  | decaySustain
deriving DecidableEq, Repr

/-- ATTACK = attack_f; DECAY_SUSTAIN = ds_f and not attack_f; OFF/RELEASE = neither (R27). -/
def envPhase (v : VoiceState) : EnvPhase :=
  if v.attackF then .attack else if v.dsF then .decaySustain else .offRelease

end Sys2Proof.Machine
end

