-- ==== Sys2Proof/Machine/Envelope.lean ====
section
/-!
DEFINITION. Sys2Proof/Machine/Envelope.lean: `ENV_TICK(v)` (41_envelope.md), the sub-steps in R130's order. It reads the
voice's registers and the clock ratio, and writes the voice's envelope fields only.
-/

namespace Sys2Proof.Machine

open Sys2Proof

/-- The skipped rate check (R132): a rising edge with a release nibble above the one the last TICK saw. -/
def skipsCheck (r : VoiceRegs) (v : VoiceState) : Bool :=
  gateRises r v && decide ((v.prevSr.extractLsb' 0 4).toNat < (releaseNibble r).toNat)

/-- The active rate index (R133). -/
def rateIndex (r : VoiceRegs) (v : VoiceState) : BitVec 4 :=
  if v.attackF then attackNibble r else if v.dsF then decayNibble r else releaseNibble r

/-- `pfx = RATE_PERIOD[idx] << RATIO_FRAC_BITS` (R136). -/
def periodFx (c : Config) (idx : BitVec 4) : Nat := ratePeriod c idx * 2 ^ c.ratioFracBits

/-- `eff` (R136). -/
def effPeriod (pfx ratio : Nat) : Nat := if ratio ≤ pfx then pfx else ratio

/-- `step`: 1, or `ceil(ratio / pfx)` when the period is shorter than the ratio (R136). -/
def envStep (pfx ratio : Nat) : Nat := if ratio ≤ pfx then 1 else (ratio + pfx - 1) / pfx

/-- The rate counter's advance (R137). -/
def rcAdvance (c : Config) (ratio rc : Nat) : Nat := (rc + ratio) % rcModulus c

/-- The crossing test (R138); the upper bound is not reduced. -/
def crosses (skip : Bool) (eff ratio rc : Nat) : Bool :=
  !skip && decide (eff ≤ rc) && decide (rc < eff + ratio)

/-- `min(255, env + step)` (R141). -/
def envUp (step : Nat) (env : BitVec 8) : BitVec 8 := BitVec.ofNat 8 (min 255 (env.toNat + step))

/-- `max(0, env - step)` (R143). -/
def envDown (step : Nat) (env : BitVec 8) : BitVec 8 := BitVec.ofNat 8 (env.toNat - step)

/-- Whether decay-sustain or release moves the level (R143): above `SUS × 17`, or always in release. -/
def decrements (r : VoiceRegs) (v : VoiceState) : Bool :=
  !v.dsF || decide ((sustainNibble r).toNat * 17 < v.env.toNat)

/-- `STEP_LOGIC(v)` (R140 to R145). -/
def stepLogic (r : VoiceRegs) (step : Nat) (v : VoiceState) : VoiceState :=
  if v.holdzeroF then v
  else if v.attackF then
    { v with env := envUp step v.env, attackF := attackAfter (envUp step v.env) }
  else if decrements r v then
    { v with env := envDown step v.env
             holdzeroF := holdzeroAfter v.env (envDown step v.env) v.holdzeroF }
  else v

/-- A crossing (R139): the counter is reduced by the period, and the prescaler decides whether the step logic runs. -/
def crossed (c : Config) (r : VoiceRegs) (eff step : Nat) (v : VoiceState) : VoiceState :=
  if v.attackF then
    { stepLogic r step { v with rc := v.rc - eff } with expcnt := 0#8 }
  else if expPeriod c v.env ≤ (v.expcnt + 1#8).toNat then
    { stepLogic r step { v with rc := v.rc - eff } with expcnt := 0#8 }
  else { v with rc := v.rc - eff, expcnt := v.expcnt + 1#8 }

/-- Sub-steps (1) to (3) of R130: gate edge, `prev_sr` update, rate-counter advance. -/
def envAdvance (c : Config) (r : VoiceRegs) (ratio : Nat) (v : VoiceState) : VoiceState :=
  { gateEdge r v with prevSr := r.sr, rc := rcAdvance c ratio v.rc }

/-- `ENV_TICK(v)` (R130). -/
def envTick (c : Config) (r : VoiceRegs) (ratio : Nat) (v : VoiceState) : VoiceState :=
  let w := envAdvance c r ratio v
  let pfx := periodFx c (rateIndex r w)
  if crosses (skipsCheck r v) (effPeriod pfx ratio) ratio w.rc then
    crossed c r (effPeriod pfx ratio) (envStep pfx ratio) w
  else w

end Sys2Proof.Machine
end

