-- ==== Sys2Proof/Machine/Mixer.lean ====
section
/-!
DEFINITION. Sys2Proof/Machine/Mixer.lean: `MIX_FILTER` (43_filter_mixer.md): mixer, state-variable filter, normalizer. Every
sum is evaluated in the order the rules write it.
-/

namespace Sys2Proof.Machine

open Sys2Proof

/-- `c[v] = toF((V[v].out - 32768) × V[v].env) / 256.0` (R200). -/
def contribution (v : VoiceState) : F64 :=
  F64.div (F64.ofInt (((v.out.toNat : Int) - 32768) * (v.env.toNat : Int))) (F64.ofInt 256)

/-- The filter input and the unfiltered bus. -/
structure MixBus where
  fin : F64
  bus : F64
deriving DecidableEq, Repr

/-- One voice is added to the filter input, to nothing, or to the bus (R201). -/
def routeVoice (p : Params) (vs : Voices) (id : VoiceId) (m : MixBus) : MixBus :=
  if routeBit p id then { m with fin := F64.add m.fin (contribution (vs.get id)) }
  else if decide (id = .v3) && voice3Off p then m
  else { m with bus := F64.add m.bus (contribution (vs.get id)) }

/-- The three voices in order, from `+0.0` (R201). -/
def mixVoices (p : Params) (vs : Voices) : MixBus :=
  routeVoice p vs .v3 (routeVoice p vs .v2 (routeVoice p vs .v1 ⟨F64.zero, F64.zero⟩))

/-- The arguments of `CUTOFF_COEF` in a tick (R204, R211). -/
def cutoffArgs (c : Config) (p : Params) (e : EngineState) : CutoffArgs :=
  ⟨c.chipModel, cutLow p, p.cutH, e.sampleRate, e.ratioFx, e.kc6581, e.kc8580⟩

/-- `hp`, `bp'`, `lp'` of one tick. -/
structure FilterTaps where
  hp : F64
  bp : F64
  lp : F64
deriving DecidableEq, Repr

/-- The filter recurrence (R206). -/
def filterStep (fin cut res : F64) (f : FilterState) : FilterTaps :=
  let tmp := F64.add (F64.add fin (F64.mul f.bp res)) f.lp
  let bp' := F64.sub f.bp (F64.mul tmp cut)
  { hp := F64.sub fin tmp
    bp := bp'
    lp := F64.add f.lp (F64.mul bp' cut) }

/-- Mode summing: HP, then BP, then LP (R207). -/
def modeSum (p : Params) (t : FilterTaps) (bus : F64) : F64 :=
  let b1 := if hpBit p then F64.sub bus t.hp else bus
  let b2 := if bpBit p then F64.sub b1 t.bp else b1
  if lpBit p then F64.add b2 t.lp else b2

/-- `y = fl(fl(bus / toF(OUTPUT_SCALE)) × toF(VOL))`, not clamped (R210). -/
def normalise (c : Config) (p : Params) (bus : F64) : F64 :=
  F64.mul (F64.div bus (F64.ofInt c.outputScale)) (F64.ofInt (volume p).toNat)

/-- The filter's outputs in a tick, whatever is routed and whatever the mode bits are (R208). -/
def filterTaps (c : Config) (p : Params) (e : EngineState) (vs : Voices) (f : FilterState) : FilterTaps :=
  filterStep (mixVoices p vs).fin (cutoffCoef c (cutoffArgs c p e)) (resonanceCoef c (resNibble p)) f

/-- `F` after the tick (R206). -/
def nextFilter (c : Config) (p : Params) (e : EngineState) (vs : Voices) (f : FilterState) : FilterState :=
  ⟨(filterTaps c p e vs f).lp, (filterTaps c p e vs f).bp⟩

/-- The tick's sample `y` (R211). -/
def mixSample (c : Config) (p : Params) (e : EngineState) (vs : Voices) (f : FilterState) : F64 :=
  normalise c p (modeSum p (filterTaps c p e vs f) (mixVoices p vs).bus)

end Sys2Proof.Machine
end

