-- ==== Sys2Proof/Machine/Oscillator.lean ====
section
/-!
DEFINITION. Sys2Proof/Machine/Oscillator.lean: `OSC_TICK(v)` (42_oscillator.md), the sub-steps in R160's order. It writes
the voice's `acc`, `prev_acc`, `lfsr`, `prev_wf` and `out`, and no other voice.
-/

namespace Sys2Proof.Machine

open Sys2Proof

/-! ### Phase accumulator -/

/-- `step_raw = (P.fq[v] × S.ratio_fx) >> RATIO_FRAC_BITS` (R161). -/
def stepRaw (c : Config) (r : VoiceRegs) (ratio : Nat) : Nat := r.fq.toNat * ratio / 2 ^ c.ratioFracBits

/-- `step = step_raw mod 2^24` (R161). -/
def accStep (c : Config) (r : VoiceRegs) (ratio : Nat) : BitVec 24 := BitVec.ofNat 24 (stepRaw c r ratio)

/-- The source voice's bit 23 rose at its last update (R164). -/
def syncRise (u : VoiceState) : Bool := u.acc.getLsbD 23 && !u.prevAcc.getLsbD 23

/-- The accumulator after the tick (R162). -/
def nextAcc (r : VoiceRegs) (step : BitVec 24) (rise : Bool) (acc : BitVec 24) : BitVec 24 :=
  if testBit r || (syncBit r && rise) then 0#24 else acc + step

/-! ### Noise register -/

/-- Whether the noise register is clocked (R170). -/
def noiseClocked (c : Config) (raw : Nat) (acc prevAcc : BitVec 24) : Bool :=
  decide (c.noiseStepLimit < raw) || (acc.getLsbD 20 != prevAcc.getLsbD 20)

/-- One clock of the noise register (R171). -/
def lfsrClock (l : BitVec 23) : BitVec 23 :=
  (l <<< 1) ||| (BitVec.ofBool (l.getLsbD 22 ^^ l.getLsbD 17)).setWidth 23

/-- Sub-steps (2) to (4) of R160, with the sync input already sampled. -/
def oscAdvance (c : Config) (r : VoiceRegs) (ratio : Nat) (rise : Bool) (v : VoiceState) : VoiceState :=
  let acc := nextAcc r (accStep c r ratio) rise v.acc
  { v with
    prevAcc := v.acc
    acc     := acc
    lfsr    := if noiseClocked c (stepRaw c r ratio) acc v.acc then lfsrClock v.lfsr else v.lfsr }

/-! ### Waveforms -/

/-- `noise16`: eight bits of the register, in the high byte (R172). -/
def noise16 (l : BitVec 23) : BitVec 16 :=
  BitVec.ofBool (l.getLsbD 20) ++ BitVec.ofBool (l.getLsbD 18) ++ BitVec.ofBool (l.getLsbD 14) ++
  BitVec.ofBool (l.getLsbD 11) ++ BitVec.ofBool (l.getLsbD 9) ++ BitVec.ofBool (l.getLsbD 5) ++
  BitVec.ofBool (l.getLsbD 2) ++ BitVec.ofBool (l.getLsbD 0) ++ 0#8

/-- `t`: the accumulator, its top bit inverted when RING is set and the source voice's top bit is 1 (R175). -/
def ringed (r : VoiceRegs) (uMsb : Bool) (acc : BitVec 24) : BitVec 24 :=
  acc ^^^ (if ringBit r && uMsb then 0x800000#24 else 0#24)

/-- `folded >> 7` (R175). -/
def tri16 (t : BitVec 24) : BitVec 16 :=
  ((if t.getLsbD 23 then (~~~t).setWidth 23 else t.setWidth 23) >>> 7).setWidth 16

/-- `V[v].acc[23:8]` (R180, R181). -/
def accHigh (acc : BitVec 24) : BitVec 16 := acc.extractLsb' 8 16

/-- `P.pw[v] × 16` (R181). -/
def pulseThreshold (r : VoiceRegs) : BitVec 16 := r.pw ++ 0#4

/-- The selected waveform output `y` (R184), with the noise lock-up (R173) and the held value (R185). -/
def waveSelect (c : Config) (wf : BitVec 4) (held noise tri saw pulse : BitVec 16) : BitVec 16 :=
  if wf = 0#4 then held
  else if wf.getLsbD 3 then (if wf = 8#4 then noise else 0#16)
  else if wf = 1#4 then tri
  else if wf = 2#4 then saw
  else if wf = 4#4 then pulse
  else combine c wf tri saw pulse

/-- Sub-step (5) of R160: the waveform output of an advanced voice, given its ring source's top bit. -/
def oscWave (c : Config) (r : VoiceRegs) (ratio : Nat) (uMsb : Bool) (v : VoiceState) : BitVec 16 :=
  waveSelect c (waveField r) v.prevWf (noise16 v.lfsr) (tri16 (ringed r uMsb v.acc))
    (sawShape c (accHigh v.acc) (accStep c r ratio))
    (pulseShape c (accHigh v.acc) (pulseThreshold r) (accStep c r ratio))

/-- Sub-step (6) of R160: `out`, and the hold memory when a waveform is selected (R185, R186). -/
def oscDrive (r : VoiceRegs) (y : BitVec 16) (v : VoiceState) : VoiceState :=
  { v with out := y, prevWf := if waveField r = 0#4 then v.prevWf else y }

/-- `OSC_TICK(v)` (R160). The sync input is read before the voice's own update (R164), the ring source after it (R175). -/
def oscTick (c : Config) (r : VoiceRegs) (ratio : Nat) (id : VoiceId) (vs : Voices) : Voices :=
  let u := syncSource c id
  let vs1 := vs.set (oscAdvance c r ratio (syncRise (vs.get u)) (vs.get id)) id
  vs1.set (oscDrive r (oscWave c r ratio ((vs1.get u).acc.getLsbD 23) (vs1.get id)) (vs1.get id)) id

end Sys2Proof.Machine
end

