-- ==== Sys2Proof/Machine/Tick.lean ====
section
/-!
DEFINITION. Sys2Proof/Machine/Tick.lean: the meaning of TICK (44_tick.md).
-/

namespace Sys2Proof.Machine

open Sys2Proof

/-- One voice of a tick: its envelope, then its oscillator (R230, R231). -/
def voiceTick (c : Config) (p : Params) (ratio : Nat) (id : VoiceId) (vs : Voices) : Voices :=
  oscTick c (p.regs id) ratio id (vs.set (envTick c (p.regs id) ratio (vs.get id)) id)

/-- Voice 1, then voice 2, then voice 3 (R231), all under one snapshot of P (R232). -/
def voicesTick (c : Config) (p : Params) (ratio : Nat) (vs : Voices) : Voices :=
  voiceTick c p ratio .v3 (voiceTick c p ratio .v2 (voiceTick c p ratio .v1 vs))

/-- `max(1, S.sampleRate div 50)` (R236). -/
def framePeriod (e : EngineState) : Nat := max 1 (e.sampleRate.toNat / 50)

/-- Whether this tick wraps the frame counter and signals a FrameMarker (R236). -/
def frameWraps (e : EngineState) : Bool := decide (framePeriod e ≤ e.frame + 1)

/-- `FRAME_TICK` (R236). -/
def frameTick (e : EngineState) : EngineState :=
  { e with frame := if framePeriod e ≤ e.frame + 1 then 0 else e.frame + 1 }

/-- An initialised TICK (R230). -/
def tickState (s : State) : State :=
  let vs := voicesTick s.cfg s.params s.engine.ratioFx s.voices
  emit (mixSample s.cfg s.params s.engine vs s.filter) (frameWraps s.engine)
    { s with
      voices := vs
      filter := nextFilter s.cfg s.params s.engine vs s.filter
      engine := frameTick s.engine }

/-- `TICK` (R230): before a reset has initialised the block it raises ConfigError(NotInitialized) and emits nothing. -/
def execTick (value : Operand) (s : State) : Host.Outcome State Fault Refusal :=
  if s.engine.init then .next (tickState s)
  else .next (raiseConfigError .notInitialized (wordOf 0x80#8 value) s)

end Sys2Proof.Machine
end

