-- ==== Sys2Proof/Machine/Writes.lean ====
section
/-!
DEFINITION. Sys2Proof/Machine/Writes.lean: the meanings of the register writes and of NOP (40_parameter_writes.md
R100 to R110, R114). No write is rejected, none raises a fault, none touches V, F or S.
-/

namespace Sys2Proof.Machine

open Sys2Proof

/-- `WR_FQ v, n` (R102): `P.fq[v] <- n[15:0]`. -/
def execWrFq1 (n : Operand) (s : State) : Host.Outcome State Fault Refusal := .next (writeFq .v1 n s)
def execWrFq2 (n : Operand) (s : State) : Host.Outcome State Fault Refusal := .next (writeFq .v2 n s)
def execWrFq3 (n : Operand) (s : State) : Host.Outcome State Fault Refusal := .next (writeFq .v3 n s)

/-- `WR_PW v, n` (R103): `P.pw[v] <- n[11:0]`. -/
def execWrPw1 (n : Operand) (s : State) : Host.Outcome State Fault Refusal := .next (writePw .v1 n s)
def execWrPw2 (n : Operand) (s : State) : Host.Outcome State Fault Refusal := .next (writePw .v2 n s)
def execWrPw3 (n : Operand) (s : State) : Host.Outcome State Fault Refusal := .next (writePw .v3 n s)

/-- `WR_WG v, n` (R104): `P.wg[v] <- n[7:0]`. -/
def execWrWg1 (n : Operand) (s : State) : Host.Outcome State Fault Refusal := .next (writeWg .v1 n s)
def execWrWg2 (n : Operand) (s : State) : Host.Outcome State Fault Refusal := .next (writeWg .v2 n s)
def execWrWg3 (n : Operand) (s : State) : Host.Outcome State Fault Refusal := .next (writeWg .v3 n s)

/-- `WR_AD v, n` (R105): `P.ad[v] <- n[7:0]`. -/
def execWrAd1 (n : Operand) (s : State) : Host.Outcome State Fault Refusal := .next (writeAd .v1 n s)
def execWrAd2 (n : Operand) (s : State) : Host.Outcome State Fault Refusal := .next (writeAd .v2 n s)
def execWrAd3 (n : Operand) (s : State) : Host.Outcome State Fault Refusal := .next (writeAd .v3 n s)

/-- `WR_SR v, n` (R106): `P.sr[v] <- n[7:0]`; `prev_sr` is the tick's to write. -/
def execWrSr1 (n : Operand) (s : State) : Host.Outcome State Fault Refusal := .next (writeSr .v1 n s)
def execWrSr2 (n : Operand) (s : State) : Host.Outcome State Fault Refusal := .next (writeSr .v2 n s)
def execWrSr3 (n : Operand) (s : State) : Host.Outcome State Fault Refusal := .next (writeSr .v3 n s)

/-- `WR_CUTL n` (R107). -/
def execWrCutl (n : Operand) (s : State) : Host.Outcome State Fault Refusal := .next (writeCutL n s)

/-- `WR_CUTH n` (R108). -/
def execWrCuth (n : Operand) (s : State) : Host.Outcome State Fault Refusal := .next (writeCutH n s)

/-- `WR_RES n` (R109). -/
def execWrRes (n : Operand) (s : State) : Host.Outcome State Fault Refusal := .next (writeRes n s)

/-- `WR_TYPEVOL n` (R110). -/
def execWrTypevol (n : Operand) (s : State) : Host.Outcome State Fault Refusal := .next (writeTypeVol n s)

/-- `NOP` (R86, R114): no state changes, nothing is emitted, nothing is raised. -/
def execNop (_key : Key) (_value : Operand) (s : State) : Host.Outcome State Fault Refusal := .next s

end Sys2Proof.Machine
end

