-- ==== Sys2Proof/Machine/Dispatch.lean ====
section
/-!
DEFINITION. Sys2Proof/Machine/Dispatch.lean: one arm per constructor of Instr.
-/

namespace Sys2Proof.Machine

open Sys2Proof

def exec (i : Instr) (s : State) : Host.Outcome State Fault Refusal :=
  match i with
  | .wrFq1 n => Sys2Proof.Machine.execWrFq1 n s
  | .wrFq2 n => Sys2Proof.Machine.execWrFq2 n s
  | .wrFq3 n => Sys2Proof.Machine.execWrFq3 n s
  | .wrPw1 n => Sys2Proof.Machine.execWrPw1 n s
  | .wrPw2 n => Sys2Proof.Machine.execWrPw2 n s
  | .wrPw3 n => Sys2Proof.Machine.execWrPw3 n s
  | .wrWg1 n => Sys2Proof.Machine.execWrWg1 n s
  | .wrWg2 n => Sys2Proof.Machine.execWrWg2 n s
  | .wrWg3 n => Sys2Proof.Machine.execWrWg3 n s
  | .wrAd1 n => Sys2Proof.Machine.execWrAd1 n s
  | .wrAd2 n => Sys2Proof.Machine.execWrAd2 n s
  | .wrAd3 n => Sys2Proof.Machine.execWrAd3 n s
  | .wrSr1 n => Sys2Proof.Machine.execWrSr1 n s
  | .wrSr2 n => Sys2Proof.Machine.execWrSr2 n s
  | .wrSr3 n => Sys2Proof.Machine.execWrSr3 n s
  | .wrCutl n => Sys2Proof.Machine.execWrCutl n s
  | .wrCuth n => Sys2Proof.Machine.execWrCuth n s
  | .wrRes n => Sys2Proof.Machine.execWrRes n s
  | .wrTypevol n => Sys2Proof.Machine.execWrTypevol n s
  | .setSr n => Sys2Proof.Machine.execSetSr n s
  | .tick value => Sys2Proof.Machine.execTick value s
  | .nop key value => Sys2Proof.Machine.execNop key value s

end Sys2Proof.Machine
end

