-- ==== Sys2Proof/Machine/Step.lean ====
section
/-!
DEFINITION. Sys2Proof/Machine/Step.lean: one step of the block: the next command of the stream is consumed, decoded and
applied (30_encoding.md R91). The block has no program counter (10_state.md R20).
-/

namespace Sys2Proof.Machine

open Sys2Proof

/-- A recorded fault has ended the run: no later command is applied (60_exceptions.md R252). With no command pending the
block holds its state unchanged (R259; log entry 7). -/
def step (s : State) : Host.Outcome State Fault Refusal :=
  match s.engine.fault with
  | some r => .fault (.configError r.cause)
  | none =>
    match fetch s with
    | none => .next s
    | some (w, s') => exec (decode w) s'

/-- The command is put at the head of the stream, so that the very next step consumes it (log entry 6). -/
def State.withFetchWord (s : State) (nbits w : Nat) : State :=
  { s with stream := BitVec.ofNat 32 (w % 2 ^ nbits) :: s.stream }

end Sys2Proof.Machine
end

