-- ==== Sys2Proof/Machine/Assembler.lean ====
section
/-!
DEFINITION. Sys2Proof/Machine/Assembler.lean: the assembler syntax and the pseudo-instructions (30_encoding.md R88 to
R90), and the host's ways of issuing commands through them (60_exceptions.md R260).
-/

namespace Sys2Proof.Machine

open Sys2Proof

/-! ### The writes, by field and voice -/

inductive VoiceField where
  | fq
  | pw
  | wg
  | ad
  | sr
deriving DecidableEq, Repr

inductive GlobalField where
  | cutL
  | cutH
  | res
  | typeVol
deriving DecidableEq, Repr

/-- The write of a voice's register (R83). -/
def voiceWrite : VoiceField → VoiceId → Operand → Instr
  | .fq, .v1 => .wrFq1
  | .fq, .v2 => .wrFq2
  | .fq, .v3 => .wrFq3
  | .pw, .v1 => .wrPw1
  | .pw, .v2 => .wrPw2
  | .pw, .v3 => .wrPw3
  | .wg, .v1 => .wrWg1
  | .wg, .v2 => .wrWg2
  | .wg, .v3 => .wrWg3
  | .ad, .v1 => .wrAd1
  | .ad, .v2 => .wrAd2
  | .ad, .v3 => .wrAd3
  | .sr, .v1 => .wrSr1
  | .sr, .v2 => .wrSr2
  | .sr, .v3 => .wrSr3

def globalWrite : GlobalField → Operand → Instr
  | .cutL => .wrCutl
  | .cutH => .wrCuth
  | .res => .wrRes
  | .typeVol => .wrTypevol

/-! ### `update` (R89): a sparse mapping of source keys to values -/

/-- The source keys of R83, the only known ones. -/
inductive UpdateKey where
  | voice (f : VoiceField) (id : VoiceId)
  | global (g : GlobalField)
  | sampleRate
deriving DecidableEq, Repr

/-- A key's spelling in R83's column of source keys: `fq1` to `sr3`, `cutL`, `cutH`, `res`, `typeVol`, `sampleRate`. -/
def UpdateKey.name : UpdateKey → List Char
  | .voice f id => fieldName f ++ [digit id]
  | .global .cutL => ['c', 'u', 't', 'L']
  | .global .cutH => ['c', 'u', 't', 'H']
  | .global .res => ['r', 'e', 's']
  | .global .typeVol => ['t', 'y', 'p', 'e', 'V', 'o', 'l']
  | .sampleRate => ['s', 'a', 'm', 'p', 'l', 'e', 'R', 'a', 't', 'e']
where
  fieldName : VoiceField → List Char
    | .fq => ['f', 'q']
    | .pw => ['p', 'w']
    | .wg => ['w', 'g']
    | .ad => ['a', 'd']
    | .sr => ['s', 'r']
  digit : VoiceId → Char
    | .v1 => '1'
    | .v2 => '2'
    | .v3 => '3'

/-- The write command of a key (R83). -/
def UpdateKey.write : UpdateKey → Operand → Instr
  | .voice f id => voiceWrite f id
  | .global g => globalWrite g
  | .sampleRate => .setSr

/-- Every key in the order of the rows of R83, `sampleRate` last (R89). -/
def updateKeys : List UpdateKey :=
  [.fq, .pw, .wg, .ad, .sr].flatMap (fun f => [.voice f .v1, .voice f .v2, .voice f .v3]) ++
    [.global .cutL, .global .cutH, .global .res, .global .typeVol, .sampleRate]

/-- A source-style sparse update: each key as it is spelt, known or not, with its value, null being `none`. A mapping holds
each key at most once (20_memory.md R67). -/
structure Update where
  entries : List (List Char × Option Operand)
deriving DecidableEq, Repr

/-- The value that an update gives a key: none where the key is absent or null (R111). -/
def Update.value (u : Update) (k : UpdateKey) : Option Operand :=
  (u.entries.find? fun e => e.1 == k.name).bind Prod.snd

/-- One write command for a key with a value, nothing for a key that is absent or null. -/
def writeOf (k : UpdateKey) : Option Operand → List Instr
  | none => []
  | some n => [k.write n]

/-- The expansion of an update: the known keys in their order, each present with a value to its write; an entry under any
other name is read for none of them and expands to nothing (R89). -/
def Update.expand (u : Update) : List Instr := updateKeys.flatMap fun k => writeOf k (u.value k)

/-! ### Source lines (R88, R90) -/

/-- A line of assembler source, its literals as written. `blank` is a line of no words, or of a comment alone as in
95_test_vectors.md P4; R88 does not name it (log entry 10). -/
inductive AsmLine where
  | blank
  | wrVoice (f : VoiceField) (v n : Nat)
  | wrGlobal (g : GlobalField) (n : Nat)
  | setSr (n : Nat)
  | tick
  | nop
  | update (es : List (List Char × Option Nat))
  | ticks (n : Nat)
  | wrFc (n : Nat)
deriving DecidableEq, Repr

/-- A literal in 0..2^24-1; any other has no encoding and is refused (R88). -/
def literal (n : Nat) : Option Operand := if n < 2 ^ 24 then some (BitVec.ofNat 24 n) else none

/-- The voice of a number; there is no voice but 1, 2 and 3. -/
def voiceOf : Nat → Option VoiceId
  | 1 => some .v1
  | 2 => some .v2
  | 3 => some .v3
  | _ => none

/-- The mapping that an update's entries as written stand for: a literal without an encoding is refused, under an unknown
key too (R88), and so is a key written twice (20_memory.md R67; log entry 10). -/
def updateOf : List (List Char × Option Nat) → Option Update
  | [] => some ⟨[]⟩
  | (k, v) :: es =>
    (updateOf es).bind fun u =>
      if (u.entries.map Prod.fst).contains k then none
      else match v with
        | none => some ⟨(k, none) :: u.entries⟩
        | some n => (literal n).map fun x => ⟨(k, some x) :: u.entries⟩

/-- The two writes of `wr.fc n`, 0 ≤ n < 2048: `wr.cutl n[2:0]`, then `wr.cuth n[10:3]` (R90). -/
def expandFc (n : BitVec 11) : List Instr :=
  [.wrCutl ((n.extractLsb' 0 3).setWidth 24), .wrCuth ((n.extractLsb' 3 8).setWidth 24)]

/-- The commands a line stands for; none when the assembler refuses it. A `tick` is the word 0x80000000 (95_test_vectors.md
P1, P4). The model's choices are named in log entry 10, two of them here: a blank line stands for no command, and the line
`nop` has the VALUE 0, of which R83 gives only the key 0x00 and which NOP ignores (R82). -/
def assemble : AsmLine → Option (List Instr)
  | .blank => some []
  | .wrVoice f v n => (voiceOf v).bind fun id => (literal n).map fun x => [voiceWrite f id x]
  | .wrGlobal g n => (literal n).map fun x => [globalWrite g x]
  | .setSr n => (literal n).map fun x => [.setSr x]
  | .tick => some [.tick 0#24]
  | .nop => some [.nop 0#8 0#24]
  | .update es => (updateOf es).map Update.expand
  | .ticks n => some (List.replicate n (.tick 0#24))
  | .wrFc n => if n < 2048 then some (expandFc (BitVec.ofNat 11 n)) else none

/-! ### Reading a line's text: lower-case mnemonic, voice number, literal in decimal or `0x` hexadecimal (R88) -/

def digitOf (c : Char) : Option Nat :=
  if '0'.toNat ≤ c.toNat && c.toNat ≤ '9'.toNat then some (c.toNat - '0'.toNat)
  else if 'a'.toNat ≤ c.toNat && c.toNat ≤ 'f'.toNat then some (c.toNat - 'a'.toNat + 10)
  else if 'A'.toNat ≤ c.toNat && c.toNat ≤ 'F'.toNat then some (c.toNat - 'A'.toNat + 10)
  else none

def readDigits (base : Nat) : List Char → Nat → Option Nat
  | [], acc => some acc
  | c :: cs, acc =>
    match digitOf c with
    | some d => if d < base then readDigits base cs (acc * base + d) else none
    | none => none

def readNumber : List Char → Option Nat
  | '0' :: 'x' :: c :: cs => readDigits 16 (c :: cs) 0
  | c :: cs => readDigits 10 (c :: cs) 0
  | [] => none

def openBrace : Char := Char.ofNat 0x7B

def closeBrace : Char := Char.ofNat 0x7D

/-- The marks that are words of their own: the comma, and the colon and the braces of `update` (R88, R89). -/
def marks : List Char := [',', ':', openBrace, closeBrace]

/-- The words of a line: split at blanks, a mark a word of its own, a comment from `;` on dropped; `word` is the word being
read, last character first. -/
def wordsOf : List Char → List Char → List (List Char)
  | [], word => if word.isEmpty then [] else [word.reverse]
  | c :: cs, word =>
    let done := if word.isEmpty then [] else [word.reverse]
    if c = ';' then done
    else if c = ' ' || c = '\t' then done ++ wordsOf cs []
    else if marks.contains c then done ++ [c] :: wordsOf cs []
    else wordsOf cs (c :: word)

/-- The value of an update's entry: `null`, or a literal (R89). -/
def readValue (word : List Char) : Option (Option Nat) :=
  if word = ['n', 'u', 'l', 'l'] then some none else (readNumber word).map some

/-- The entries `key: n` of an update, a comma between two of them, up to the closing brace, which ends the line. -/
def readEntries : List (List Char) → Option (List (List Char × Option Nat))
  | key :: [':'] :: value :: next :: rest =>
    if key.any marks.contains then none
    else (readValue value).bind fun v =>
      if next = [','] then (readEntries rest).map ((key, v) :: ·)
      else if next = [closeBrace] && rest.isEmpty then some [(key, v)]
      else none
  | _ => none

/-- What follows the word `update`: entries in braces, or braces with nothing between them. -/
def readUpdate (words : List (List Char)) : Option AsmLine :=
  match words with
  | first :: rest =>
    if first ≠ [openBrace] then none
    else if rest = [[closeBrace]] then some (.update [])
    else (readEntries rest).map .update
  | [] => none

/-- The line that a text spells, none for a text that is refused. R88 to R90 leave some of the spelling open, and log entry 10
names what the model chose: a text without words, or of a comment alone, is the blank line, and a voice number is spelt as a
value is, in decimal or `0x` hexadecimal. -/
def readLine (text : List Char) : Option AsmLine :=
  match wordsOf text [] with
  | [] => some .blank
  | [['t', 'i', 'c', 'k']] => some .tick
  | [['n', 'o', 'p']] => some .nop
  | [['s', 'e', 't', '.', 's', 'r'], n] => (readNumber n).map .setSr
  | [['t', 'i', 'c', 'k', 's'], n] => (readNumber n).map .ticks
  | [['w', 'r', '.', 'f', 'c'], n] => (readNumber n).map .wrFc
  | [['w', 'r', '.', 'c', 'u', 't', 'l'], n] => (readNumber n).map (.wrGlobal .cutL)
  | [['w', 'r', '.', 'c', 'u', 't', 'h'], n] => (readNumber n).map (.wrGlobal .cutH)
  | [['w', 'r', '.', 'r', 'e', 's'], n] => (readNumber n).map (.wrGlobal .res)
  | [['w', 'r', '.', 't', 'y', 'p', 'e', 'v', 'o', 'l'], n] => (readNumber n).map (.wrGlobal .typeVol)
  | [['w', 'r', '.', 'f', 'q'], v, [','], n] => readVoice .fq v n
  | [['w', 'r', '.', 'p', 'w'], v, [','], n] => readVoice .pw v n
  | [['w', 'r', '.', 'w', 'g'], v, [','], n] => readVoice .wg v n
  | [['w', 'r', '.', 'a', 'd'], v, [','], n] => readVoice .ad v n
  | [['w', 'r', '.', 's', 'r'], v, [','], n] => readVoice .sr v n
  | ['u', 'p', 'd', 'a', 't', 'e'] :: rest => readUpdate rest
  | _ => none
where
  readVoice (f : VoiceField) (v n : List Char) : Option AsmLine :=
    (readNumber v).bind fun v => (readNumber n).map fun n => .wrVoice f v n

/-! ### The host's interactions (R260) -/

/-- A parameter update: its expansion joins the stream, with no TICK between its writes (R66, R89). -/
def hostUpdate (u : Update) (s : State) : State := hostSend (u.expand.map encode) s

/-- A render call of `n` samples: `n` TICKs join the stream (R260). -/
def hostRender (n : Nat) (s : State) : State := hostSend (List.replicate n (encode (.tick 0#24))) s

end Sys2Proof.Machine
end

