-- ==== Sys2Proof/Machine/Collected.lean ====
section
/-!
DEFINITION. Sys2Proof/Machine/Collected.lean: the collected pseudocode of the spec, R147 (`ENV_TICK`), R187 (`OSC_TICK`)
and R211 (`MIX_FILTER`), transcribed line by line over natural numbers. No meaning calls these: the machine runs the
staged definitions, written from the separate rules, and a statement says that the two agree. Below them, the
condition of R13's rounding.
-/

namespace Sys2Proof.Machine

open Sys2Proof

/-- R147, line by line. -/
def envTickCollected (c : Config) (r : VoiceRegs) (ratio : Nat) (v : VoiceState) : VoiceState :=
  let g := r.wg.toNat.testBit 0
  let rising := g && !v.prevGate
  let falling := !g && v.prevGate
  let v := if rising then { v with gateF := true, attackF := true, dsF := true, holdzeroF := false } else v
  let v := if falling then { v with gateF := false, attackF := false, dsF := false } else v
  let v := { v with prevGate := g }
  let skip := rising && decide (v.prevSr.toNat % 16 < r.sr.toNat % 16)
  let v := { v with prevSr := r.sr }
  let v := { v with rc := (v.rc + ratio) % (0x8000 * 2 ^ c.ratioFracBits) }
  let idx := if v.attackF then r.ad.toNat / 16 else if v.dsF then r.ad.toNat % 16 else r.sr.toNat % 16
  let pfx := ratePeriod c (BitVec.ofNat 4 idx) * 2 ^ c.ratioFracBits
  let eff := if ratio ≤ pfx then pfx else ratio
  let step := if ratio ≤ pfx then 1 else if ratio % pfx = 0 then ratio / pfx else ratio / pfx + 1
  if !skip && decide (eff ≤ v.rc ∧ v.rc < eff + ratio) then
    let v := { v with rc := v.rc - eff }
    let count := (v.expcnt.toNat + 1) % 256
    let fire := v.attackF || decide (expPeriod c v.env ≤ count)
    let v := if v.attackF then v else { v with expcnt := BitVec.ofNat 8 count }
    if fire then
      let v :=
        if v.holdzeroF then v
        else if v.attackF then
          let level := min 255 (v.env.toNat + step)
          { v with env := BitVec.ofNat 8 level, attackF := decide (level ≠ 255) }
        else if !v.dsF || decide (r.sr.toNat / 16 * 17 < v.env.toNat) then
          let before := v.env.toNat
          let level := before - step
          { v with env := BitVec.ofNat 8 level, holdzeroF := decide (0 < before ∧ level = 0) }
        else v
      { v with expcnt := 0#8 }
    else v
  else v

/-- R187, line by line. -/
def oscTickCollected (c : Config) (r : VoiceRegs) (ratio : Nat) (id : VoiceId) (vs : Voices) : Voices :=
  let u := syncSource c id
  let v := vs.get id
  let wg := r.wg.toNat
  let rise := (vs.get u).acc.toNat.testBit 23 && !(vs.get u).prevAcc.toNat.testBit 23
  let raw := r.fq.toNat * ratio / 2 ^ c.ratioFracBits
  let step := raw % 2 ^ 24
  let prev := v.acc.toNat
  let acc := if wg.testBit 3 || (wg.testBit 1 && rise) then 0 else (prev + step) % 2 ^ 24
  let old := v.lfsr.toNat
  let fb := if old.testBit 22 != old.testBit 17 then 1 else 0
  let lfsr :=
    if decide (c.noiseStepLimit < raw) || (acc.testBit 20 != prev.testBit 20) then (2 * old + fb) % 2 ^ 23 else old
  let source := if u = id then acc else (vs.get u).acc.toNat
  let t := if wg.testBit 2 && source.testBit 23 then (if acc < 2 ^ 23 then acc + 2 ^ 23 else acc - 2 ^ 23) else acc
  let tri := (if t < 2 ^ 23 then t else 2 ^ 24 - 1 - t) / 128
  let saw := sawShape c (BitVec.ofNat 16 (acc / 256)) (BitVec.ofNat 24 step)
  let pulse := pulseShape c (BitVec.ofNat 16 (acc / 256)) (BitVec.ofNat 16 (r.pw.toNat * 16)) (BitVec.ofNat 24 step)
  let bit := fun k w => if lfsr.testBit k then w else 0
  let noise := (bit 20 128 + bit 18 64 + bit 14 32 + bit 11 16 + bit 9 8 + bit 5 4 + bit 2 2 + bit 0 1) * 256
  let wf := wg / 16
  let y :=
    if wf = 0 then v.prevWf
    else if 8 ≤ wf then (if wf = 8 then BitVec.ofNat 16 noise else 0#16)
    else if wf = 1 then BitVec.ofNat 16 tri
    else if wf = 2 then saw
    else if wf = 4 then pulse
    else combine c (BitVec.ofNat 4 wf) (BitVec.ofNat 16 tri) saw pulse
  vs.set { v with prevAcc := v.acc, acc := BitVec.ofNat 24 acc, lfsr := BitVec.ofNat 23 lfsr
                  prevWf := if wf = 0 then v.prevWf else y, out := y } id

/-- R211, line by line: the sample and the filter state it leaves. -/
def mixFilterCollected (c : Config) (p : Params) (e : EngineState) (vs : Voices) (f : FilterState) : F64 × FilterState :=
  let scaled := fun v : VoiceState =>
    F64.div (F64.ofInt (((v.out.toNat : Int) - 32768) * (v.env.toNat : Int))) (F64.ofInt 256)
  let fin := F64.zero
  let bus := F64.zero
  let r1 := p.res.toNat.testBit 0
  let r2 := p.res.toNat.testBit 1
  let r3 := p.res.toNat.testBit 2
  let fin := if r1 then F64.add fin (scaled vs.v1) else fin
  let bus := if r1 then bus else F64.add bus (scaled vs.v1)
  let fin := if r2 then F64.add fin (scaled vs.v2) else fin
  let bus := if r2 then bus else F64.add bus (scaled vs.v2)
  let fin := if r3 then F64.add fin (scaled vs.v3) else fin
  let bus := if r3 || p.typeVol.toNat.testBit 7 then bus else F64.add bus (scaled vs.v3)
  let cut := cutoffCoef c
    ⟨c.chipModel, BitVec.ofNat 3 (p.cutL.toNat % 8), p.cutH, e.sampleRate, e.ratioFx, e.kc6581, e.kc8580⟩
  let res := resonanceCoef c (BitVec.ofNat 4 (p.res.toNat / 16))
  let tmp := F64.add (F64.add fin (F64.mul f.bp res)) f.lp
  let hp := F64.sub fin tmp
  let bp' := F64.sub f.bp (F64.mul tmp cut)
  let lp' := F64.add f.lp (F64.mul bp' cut)
  let bus := if p.typeVol.toNat.testBit 6 then F64.sub bus hp else bus
  let bus := if p.typeVol.toNat.testBit 5 then F64.sub bus bp' else bus
  let bus := if p.typeVol.toNat.testBit 4 then F64.add bus lp' else bus
  let y := F64.mul (F64.div bus (F64.ofInt c.outputScale)) (F64.ofInt (p.typeVol.toNat % 16 : Nat))
  (y, ⟨lp', bp'⟩)

/-- What R13 asks of a rounded result: of all finite binary64 numbers the finite number `z` is nearest to the exact value
`num / den` (in units of 2^-1074, `den` positive), and where another is equally near, the last fraction bit of `z` is 0. -/
def NearestEven (z : F64) (num : Int) (den : Nat) : Prop :=
  match z with
  | .finite s e f =>
    ∀ (s' : Bool) (e' : Fin 2047) (f' : BitVec 52),
      (F64.signedUnits s e f * den - num).natAbs ≤ (F64.signedUnits s' e' f' * den - num).natAbs ∧
      ((F64.signedUnits s e f * den - num).natAbs = (F64.signedUnits s' e' f' * den - num).natAbs →
        F64.signedUnits s e f ≠ F64.signedUnits s' e' f' → f.getLsbD 0 = false)
  | _ => False

end Sys2Proof.Machine
end

