-- ==== Sys2Proof/Safety.lean ====
section
/-!
DEFINITION. Sys2Proof/Safety.lean: the terms in which claims speak of runs: the invariant that every step keeps, and
the runs that raise no fault.
-/

namespace Sys2Proof.Machine

open Sys2Proof

/-- What holds of a voice in every state of a run: the rate counter is below its modulus (10_state.md R30), the noise
register has not locked up at 0 (70_reset_and_hazards.md R273), the flags encode one of the envelope states (R27) and
agree with the gate bit last seen (41_envelope.md R131), and hold-zero means the level is 0 (R144). -/
structure VoiceInv (c : Config) (v : VoiceState) : Prop where
  rc_lt          : v.rc < rcModulus c
  lfsr_ne        : v.lfsr ≠ 0#23
  gate_prev      : v.gateF = v.prevGate
  ds_gate        : v.dsF = v.gateF
  attack_ds      : v.attackF = true → v.dsF = true
  attack_no_hold : v.attackF = true → v.holdzeroF = false
  hold_env       : v.holdzeroF = true → v.env = 0#8

/-- Of an initialised engine, the derived constants are those of its sample rate, which is positive (R24). -/
structure EngineInv (c : Config) (e : EngineState) : Prop where
  rate_pos : e.init = true → e.sampleRate ≠ 0#24
  ratio_eq : e.init = true → e.ratioFx = clockRatio c e.sampleRate
  kc_eq    : e.init = true → (e.kc6581, e.kc8580) = cutoffRatio c e.sampleRate

structure Inv (s : State) : Prop where
  cfg_wf : configWf s.cfg = true
  voices : ∀ id, VoiceInv s.cfg (s.voices.get id)
  engine : EngineInv s.cfg s.engine

/-- A run that raises no fault: the block is initialised, no fault is recorded, and the stream sets no zero sample rate. -/
structure SafeRun (s : State) : Prop where
  initialised : s.engine.init = true
  no_fault    : s.engine.fault = none
  no_zero     : ∀ w ∈ s.stream, decode w ≠ .setSr 0#24

end Sys2Proof.Machine
end

