-- ==== Sys2Proof/Certificates/Slice0/Obligations.lean ====
section
/-!
DEFINITION. Sys2Proof/Certificates/Slice0/Obligations.lean: the statements for the provers, from the numbered rules of
spec/. Where a rule is the spec's own decision (92_eei_decisions.md) it is a rule of this spec all the same.
-/

open Sys2Proof Sys2Proof.Machine

/-! ### Encoding -/

/-- Decoding undoes encoding, for every well-formed command and every operand (30_encoding.md R81 to R83). -/
def Obligations.DecodeInvertsEncode : Prop :=
  ∀ i : Instr, i.wf = true → decode (encode i) = i

/-- Every 32-bit word decodes to one well-formed command, whose word it is (R87). -/
def Obligations.EncodeInvertsDecode : Prop :=
  ∀ w : CmdWord, (decode w).wf = true ∧ encode (decode w) = w

/-- The key map of R83, every row of it, and NOP for every key it does not list. -/
def Obligations.ListedKeysSelectTheirCommands : Prop :=
  ∀ n : Operand,
    (∀ key, listedKeys.contains key = false → decode (key ++ n) = .nop key n) ∧
    (decode (0x10#8 ++ n) = .wrFq1 n ∧ decode (0x20#8 ++ n) = .wrFq2 n ∧ decode (0x30#8 ++ n) = .wrFq3 n) ∧
    (decode (0x11#8 ++ n) = .wrPw1 n ∧ decode (0x21#8 ++ n) = .wrPw2 n ∧ decode (0x31#8 ++ n) = .wrPw3 n) ∧
    (decode (0x12#8 ++ n) = .wrWg1 n ∧ decode (0x22#8 ++ n) = .wrWg2 n ∧ decode (0x32#8 ++ n) = .wrWg3 n) ∧
    (decode (0x13#8 ++ n) = .wrAd1 n ∧ decode (0x23#8 ++ n) = .wrAd2 n ∧ decode (0x33#8 ++ n) = .wrAd3 n) ∧
    (decode (0x14#8 ++ n) = .wrSr1 n ∧ decode (0x24#8 ++ n) = .wrSr2 n ∧ decode (0x34#8 ++ n) = .wrSr3 n) ∧
    (decode (0x40#8 ++ n) = .wrCutl n ∧ decode (0x41#8 ++ n) = .wrCuth n ∧ decode (0x42#8 ++ n) = .wrRes n ∧
     decode (0x43#8 ++ n) = .wrTypevol n) ∧
    (decode (0x50#8 ++ n) = .setSr n ∧ decode (0x80#8 ++ n) = .tick n ∧ decode (0x00#8 ++ n) = .nop 0x00#8 n)

/-- Every key in the ranges of R86 decodes to NOP, which changes no state and emits nothing. -/
def Obligations.UnlistedKeysAreNop : Prop :=
  ∀ (key : Key) (n : Operand) (s : State),
    (key.toNat ≤ 0x0F ∨ (0x15 ≤ key.toNat ∧ key.toNat ≤ 0x1F) ∨ (0x25 ≤ key.toNat ∧ key.toNat ≤ 0x2F) ∨
     (0x35 ≤ key.toNat ∧ key.toNat ≤ 0x3F) ∨ (0x44 ≤ key.toNat ∧ key.toNat ≤ 0x4F) ∨
     (0x51 ≤ key.toNat ∧ key.toNat ≤ 0x7F) ∨ 0x81 ≤ key.toNat) →
    decode (key ++ n) = .nop key n ∧ exec (decode (key ++ n)) s = .next s

/-- VALUE never changes which command is selected (R84). -/
def Obligations.KeyAloneSelectsTheCommand : Prop :=
  ∀ w w' : CmdWord, w.toNat / 2 ^ 24 = w'.toNat / 2 ^ 24 → (decode w).mnemonic = (decode w').mnemonic

/-- The words the spec writes out (R102 to R112, 95_test_vectors.md 2.1 and P4). -/
def Obligations.WrittenWordsDecode : Prop :=
  decode 0x10011000#32 = .wrFq1 0x11000#24 ∧ decode 0x3000FFFF#32 = .wrFq3 0xFFFF#24 ∧
  decode 0x21001800#32 = .wrPw2 0x1800#24 ∧ decode 0x12000321#32 = .wrWg1 0x321#24 ∧
  decode 0x330000F0#32 = .wrAd3 0xF0#24 ∧ decode 0x240000A5#32 = .wrSr2 0xA5#24 ∧
  decode 0x400000FF#32 = .wrCutl 0xFF#24 ∧ decode 0x41000080#32 = .wrCuth 0x80#24 ∧
  decode 0x42000107#32 = .wrRes 0x107#24 ∧ decode 0x4300001F#32 = .wrTypevol 0x1F#24 ∧
  decode 0x5000AC44#32 = .setSr 44100#24 ∧ decode 0x80000000#32 = .tick 0#24 ∧
  decode 0x15000001#32 = .nop 0x15#8 1#24 ∧ decode 0xFFFFFFFF#32 = .nop 0xFF#8 0xFFFFFF#24

/-! ### Steps -/

/-- A step with a command pending and no fault recorded consumes the first word of the stream and applies the command
it decodes to; a command leaves the rest of the stream as it is (R91). -/
def Obligations.StepAppliesTheDecodedCommand : Prop :=
  ∀ (s : State) (w : CmdWord) (rest : List CmdWord),
    s.engine.fault = none → s.stream = w :: rest →
    step s = exec (decode w) { s with stream := rest } ∧
    ∃ t, step s = .next t ∧ t.stream = rest

/-- No encoding is illegal and no encoding traps: whatever the word, its command answers a next state (R85). -/
def Obligations.EveryWordAnswersANextState : Prop :=
  ∀ (w : CmdWord) (s : State), ∃ t, exec (decode w) s = .next t

/-- Once a fault is recorded no later command is applied: the run ends with that error (60_exceptions.md R252). With no
fault and no command pending the block holds its state (R259; that the model makes this a step which changes nothing is
log entry 7). -/
def Obligations.FaultOrEmptyStreamAppliesNothing : Prop :=
  ∀ s : State,
    (∀ r, s.engine.fault = some r → step s = .fault (.configError r.cause)) ∧
    (s.engine.fault = none → s.stream = [] → step s = .next s)


/-! ### Register writes -/

/-- `P.fq[v] <- n mod 2^16`, and nothing else changes (40_parameter_writes.md R102), under the keys {v, 0x0}; a frequency of
0 stops the accumulator, TEST and SYNC being clear; the spec's example. -/
def Obligations.FrequencyWriteStoresLow16Bits : Prop :=
  (∀ (n : Operand) (s : State),
    exec (decode (0x10#8 ++ n)) s = .next { s with params := { s.params with r1 := { s.params.r1 with fq := BitVec.ofNat 16 (n.toNat % 2 ^ 16) } } } ∧
    exec (decode (0x20#8 ++ n)) s = .next { s with params := { s.params with r2 := { s.params.r2 with fq := BitVec.ofNat 16 (n.toNat % 2 ^ 16) } } } ∧
    exec (decode (0x30#8 ++ n)) s = .next { s with params := { s.params with r3 := { s.params.r3 with fq := BitVec.ofNat 16 (n.toNat % 2 ^ 16) } } }) ∧
  (∀ (c : Config) (r : VoiceRegs) (ratio : Nat) (id : VoiceId) (vs : Voices),
    r.fq = 0#16 → r.wg.getLsbD 3 = false → r.wg.getLsbD 1 = false →
    ((oscTick c r ratio id vs).get id).acc = (vs.get id).acc) ∧
  ∀ s : State, ∃ t, exec (decode 0x10011000#32) s = .next t ∧ t.params.r1.fq = 0x1000#16

/-- `P.pw[v] <- n mod 2^12`, and nothing else changes (R103), under the keys {v, 0x1}; the spec's example. -/
def Obligations.PulseWidthWriteStoresLow12Bits : Prop :=
  (∀ (n : Operand) (s : State),
    exec (decode (0x11#8 ++ n)) s = .next { s with params := { s.params with r1 := { s.params.r1 with pw := BitVec.ofNat 12 (n.toNat % 2 ^ 12) } } } ∧
    exec (decode (0x21#8 ++ n)) s = .next { s with params := { s.params with r2 := { s.params.r2 with pw := BitVec.ofNat 12 (n.toNat % 2 ^ 12) } } } ∧
    exec (decode (0x31#8 ++ n)) s = .next { s with params := { s.params with r3 := { s.params.r3 with pw := BitVec.ofNat 12 (n.toNat % 2 ^ 12) } } }) ∧
  ∀ s : State, ∃ t, exec (decode 0x21001800#32) s = .next t ∧ t.params.r2.pw = 0x800#12

/-- The byte writes of a voice, `P.wg[v]`, `P.ad[v]` and `P.sr[v]`: the low 8 bits, and nothing else changes, no flag and no
`prev_sr` in particular (R100, R101, R104 to R106). -/
def Obligations.VoiceByteWritesStoreLow8Bits : Prop :=
  ∀ (n : Operand) (s : State),
    (exec (.wrWg1 n) s = .next { s with params := { s.params with r1 := { s.params.r1 with wg := BitVec.ofNat 8 (n.toNat % 2 ^ 8) } } } ∧
     exec (.wrWg2 n) s = .next { s with params := { s.params with r2 := { s.params.r2 with wg := BitVec.ofNat 8 (n.toNat % 2 ^ 8) } } } ∧
     exec (.wrWg3 n) s = .next { s with params := { s.params with r3 := { s.params.r3 with wg := BitVec.ofNat 8 (n.toNat % 2 ^ 8) } } }) ∧
    (exec (.wrAd1 n) s = .next { s with params := { s.params with r1 := { s.params.r1 with ad := BitVec.ofNat 8 (n.toNat % 2 ^ 8) } } } ∧
     exec (.wrAd2 n) s = .next { s with params := { s.params with r2 := { s.params.r2 with ad := BitVec.ofNat 8 (n.toNat % 2 ^ 8) } } } ∧
     exec (.wrAd3 n) s = .next { s with params := { s.params with r3 := { s.params.r3 with ad := BitVec.ofNat 8 (n.toNat % 2 ^ 8) } } }) ∧
    (exec (.wrSr1 n) s = .next { s with params := { s.params with r1 := { s.params.r1 with sr := BitVec.ofNat 8 (n.toNat % 2 ^ 8) } } } ∧
     exec (.wrSr2 n) s = .next { s with params := { s.params with r2 := { s.params.r2 with sr := BitVec.ofNat 8 (n.toNat % 2 ^ 8) } } } ∧
     exec (.wrSr3 n) s = .next { s with params := { s.params with r3 := { s.params.r3 with sr := BitVec.ofNat 8 (n.toNat % 2 ^ 8) } } })


/-- The four global writes, each the low 8 bits and nothing else, with their keys and the spec's examples (R108 to R110;
of R107 the write). -/
def Obligations.GlobalWritesStoreLow8Bits : Prop :=
  (∀ (n : Operand) (s : State),
    exec (decode (0x40#8 ++ n)) s = .next { s with params := { s.params with cutL := BitVec.ofNat 8 (n.toNat % 2 ^ 8) } } ∧
    exec (decode (0x41#8 ++ n)) s = .next { s with params := { s.params with cutH := BitVec.ofNat 8 (n.toNat % 2 ^ 8) } } ∧
    exec (decode (0x42#8 ++ n)) s = .next { s with params := { s.params with res := BitVec.ofNat 8 (n.toNat % 2 ^ 8) } } ∧
    exec (decode (0x43#8 ++ n)) s = .next { s with params := { s.params with typeVol := BitVec.ofNat 8 (n.toNat % 2 ^ 8) } }) ∧
  ∀ s : State,
    (∃ t, exec (decode 0x400000FF#32) s = .next t ∧ (cut11 t.params).toNat % 8 = 7) ∧
    (∃ t, exec (decode 0x41000080#32) s = .next t ∧ (cut11 t.params).toNat / 8 = 0x80) ∧
    (∃ t, exec (decode 0x420000F7#32) s = .next t ∧ resNibble t.params = 15#4 ∧ ∀ v, routeBit t.params v = true) ∧
    (∃ t, exec (decode 0x4300001F#32) s = .next t ∧ volume t.params = 15#4 ∧ lpBit t.params = true ∧
      bpBit t.params = false ∧ hpBit t.params = false)

/-- NOP changes no state, emits nothing and raises nothing; the spec's two words (R114). -/
def Obligations.NopChangesNothing : Prop :=
  (∀ (key : Key) (n : Operand) (s : State), exec (.nop key n) s = .next s) ∧
  decode 0x00000000#32 = .nop 0x00#8 0x000000#24 ∧ decode 0xFF123456#32 = .nop 0xFF#8 0x123456#24

/-- Every command but TICK leaves V, F, `S.frame` and `S.init` as they are and emits nothing (the head of
40_parameter_writes.md; 70_reset_and_hazards.md R274). -/
def Obligations.OnlyTickAdvancesTheSound : Prop :=
  ∀ (i : Instr) (s : State), (∀ n, i ≠ .tick n) →
    ∃ t, exec i s = .next t ∧ t.voices = s.voices ∧ t.filter = s.filter ∧ t.engine.frame = s.engine.frame ∧
      t.engine.init = s.engine.init ∧ t.outputs = s.outputs ∧ t.cfg = s.cfg ∧ t.stream = s.stream

/-- Writing the same value twice leaves the same state as writing it once, for every command but TICK
(20_memory.md R63, 44_tick.md R238). -/
def Obligations.RepeatedCommandIsIdempotent : Prop :=
  ∀ (i : Instr) (s t : State), (∀ n, i ≠ .tick n) → exec i s = .next t → exec i t = .next t


/-- The order of the writes of one update has no effect: pending in any order, they leave the same state
(20_memory.md R67), where the update does not set a sample rate of 0. -/
def Obligations.UpdateOrderHasNoEffect : Prop :=
  ∀ (u : Update) (ws : List CmdWord) (s : State),
    u.value .sampleRate ≠ some 0#24 → s.engine.fault = none → ws.Perm (u.expand.map encode) →
    ∃ t, core.run ws.length { s with stream := ws } = .next t ∧
      core.run ws.length { s with stream := u.expand.map encode } = .next t ∧ t.stream = []

/-! ### Sample rate -/

/-- SET_SR with a positive rate recomputes the sample rate's constants and changes nothing else (R112, 10_state.md R24);
the default cutoff-ratio constants are the formulas of R203, whose literal 3.14 is read as the binary64 number nearest to it:
that reading is the model's, and no rule's (log entry 5). -/
def Obligations.SetSrRecomputesTheConstants : Prop :=
  ∀ (n : Operand) (s : State), n ≠ 0#24 →
    exec (.setSr n) s = .next { s with engine := { s.engine with
      sampleRate := n
      ratioFx := s.cfg.chipClock * 2 ^ s.cfg.ratioFracBits / n.toNat
      kc6581 := (cutoffRatio s.cfg n).1
      kc8580 := (cutoffRatio s.cfg n).2 } } ∧
    (s.cfg.cutoffRatio = [] →
      (cutoffRatio s.cfg n).2 =
        ((((F64.ofInt (-2)).mul (F64.lit 314 100)).mul ((F64.ofInt 12500).div (F64.ofInt 256))).div (F64.ofInt n.toNat)) ∧
      (cutoffRatio s.cfg n).1 =
        ((((F64.ofInt (-2)).mul (F64.lit 314 100)).mul ((F64.ofInt 20000).div (F64.ofInt 256))).div (F64.ofInt n.toNat)))

/-- SET_SR 0 raises ConfigError(SampleRateNotPositive), code 1, and applies nothing but the record of it, with the
command word (R113, R251). -/
def Obligations.SetSrZeroRecordsTheError : Prop :=
  ∀ s : State,
    exec (.setSr 0#24) s = .next { s with engine := { s.engine with
      fault := some ⟨.sampleRateNotPositive, .command 0x50000000#32⟩ } } ∧
    ConfigError.code .sampleRateNotPositive = 1

/-- Setting a rate and then the old one again restores the whole state, the clock ratio and both cutoff-ratio constants
with it (44_tick.md R239); setting the current rate changes nothing (R112). -/
def Obligations.SampleRateRoundTrip : Prop :=
  ∀ (n : Operand) (s : State), Inv s → s.engine.init = true → n ≠ 0#24 →
    exec (.setSr s.engine.sampleRate) s = .next s ∧
    ∃ t, exec (.setSr n) s = .next t ∧ exec (.setSr s.engine.sampleRate) t = .next s


/-! ### TICK -/

/-- TICK before a reset raises ConfigError(NotInitialized), code 2, and changes nothing but the record of it
(44_tick.md R230, R251). -/
def Obligations.TickBeforeResetRecordsTheError : Prop :=
  (∀ (n : Operand) (s : State), s.engine.init = false →
    exec (.tick n) s = .next { s with engine := { s.engine with
      fault := some ⟨.notInitialized, .command (0x80#8 ++ n)⟩ } }) ∧
  ConfigError.code .notInitialized = 2

/-- An initialised TICK runs voices 1, 2, 3 in that order, each its envelope and then its oscillator, then the mixer and
filter, then the frame counter, and emits one sample; registers, parameters, constants and stream stay (R230, R231). -/
def Obligations.TickRunsTheVoicesInOrder : Prop :=
  ∀ (n : Operand) (s : State), s.engine.init = true →
    let k := s.engine.ratioFx
    let a1 := s.voices.set (envTick s.cfg s.params.r1 k s.voices.v1) .v1
    let a := oscTick s.cfg s.params.r1 k .v1 a1
    let b1 := a.set (envTick s.cfg s.params.r2 k a.v2) .v2
    let b := oscTick s.cfg s.params.r2 k .v2 b1
    let d1 := b.set (envTick s.cfg s.params.r3 k b.v3) .v3
    let d := oscTick s.cfg s.params.r3 k .v3 d1
    let wraps := max 1 (s.engine.sampleRate.toNat / 50) ≤ s.engine.frame + 1
    exec (.tick n) s = .next { s with
      voices  := d
      filter  := nextFilter s.cfg s.params s.engine d s.filter
      engine  := { s.engine with frame := if wraps then 0 else s.engine.frame + 1 }
      outputs := ⟨mixSample s.cfg s.params s.engine d s.filter, decide wraps⟩ :: s.outputs }

/-- Each TICK emits exactly one sample, and the host receives it on each of its NCH channels (R235). -/
def Obligations.TickEmitsOneSampleOnEveryChannel : Prop :=
  ∀ (n : Operand) (s : State), s.engine.init = true →
    ∃ t o, exec (.tick n) s = .next t ∧ t.outputs = o :: s.outputs ∧
      ∀ k, o.channel s.cfg k = if k < s.cfg.nch then some o.y else none

/-- FRAME_TICK: the counter is incremented and, at `max(1, sampleRate div 50)` or above, wraps to 0 with a FrameMarker;
above the period it wraps at the next TICK (R236). -/
def Obligations.FrameCounterWrapsAtItsPeriod : Prop :=
  ∀ (n : Operand) (s : State), s.engine.init = true →
    ∃ t o, exec (.tick n) s = .next t ∧ t.outputs = o :: s.outputs ∧
      (max 1 (s.engine.sampleRate.toNat / 50) ≤ s.engine.frame + 1 → t.engine.frame = 0 ∧ o.marker = true) ∧
      (s.engine.frame + 1 < max 1 (s.engine.sampleRate.toNat / 50) →
        t.engine.frame = s.engine.frame + 1 ∧ o.marker = false)

/-- No sample depends on the frame counter, nor on what was emitted before, nor on the commands still pending
(R237, R233). -/
def Obligations.FrameCounterFeedsNoSample : Prop :=
  ∀ (n m : Operand) (s : State) (frame : Nat) (outs : List TickOutput) (ws : List CmdWord), s.engine.init = true →
    ∃ t u o p, exec (.tick n) s = .next t ∧
      exec (.tick m) { s with engine := { s.engine with frame := frame }, outputs := outs, stream := ws } = .next u ∧
      t.voices = u.voices ∧ t.filter = u.filter ∧ t.outputs = o :: s.outputs ∧ u.outputs = p :: outs ∧ o.y = p.y

/-- No rule reads bits 7 to 3 of cutoff-low (R107) or bit 3 of the resonance and route byte (10_state.md R25): two
states that differ in those bits alone give the same sample and the same voices, filter and engine state. -/
def Obligations.IgnoredRegisterBitsFeedNoSample : Prop :=
  ∀ (n : Operand) (s : State) (l r : BitVec 8), s.engine.init = true →
    l.toNat % 8 = s.params.cutL.toNat % 8 → (∀ k, k ≠ 3 → r.getLsbD k = s.params.res.getLsbD k) →
    ∃ t u, exec (.tick n) s = .next t ∧
      exec (.tick n) { s with params := { s.params with cutL := l, res := r } } = .next u ∧
      t.voices = u.voices ∧ t.filter = u.filter ∧ t.engine = u.engine ∧ t.outputs = u.outputs

/-! ### Envelope -/

/-- A gate edge sets or clears the flags as R131 says, the level and everything else is kept, and `prev_gate` is the gate
bit; without an edge only `prev_gate` is written. -/
def Obligations.GateEdgeWritesTheFlags : Prop :=
  ∀ (r : VoiceRegs) (v : VoiceState),
    (r.wg.getLsbD 0 = true → v.prevGate = false →
      gateEdge r v = { v with gateF := true, attackF := true, dsF := true, holdzeroF := false, prevGate := true }) ∧
    (r.wg.getLsbD 0 = false → v.prevGate = true →
      gateEdge r v = { v with gateF := false, attackF := false, dsF := false, prevGate := false }) ∧
    (r.wg.getLsbD 0 = v.prevGate → gateEdge r v = v)

/-- On the whole machine: only a TICK that sees a gate edge sets a gate, attack or decay-sustain flag, or clears
hold-zero; the gate flag after a TICK is the gate bit's edge result and `prev_gate` the gate bit (R27, R131, 90 C2). -/
def Obligations.EnvelopeFlagsFollowGateEdges : Prop :=
  ∀ (i : Instr) (s t : State) (id : VoiceId), exec i s = .next t →
    let v := s.voices.get id
    let w := t.voices.get id
    let rising := gateBit (s.params.regs id) = true ∧ v.prevGate = false ∧ ∃ n, i = .tick n
    (v.gateF = false → w.gateF = true → rising) ∧ (v.attackF = false → w.attackF = true → rising) ∧
    (v.dsF = false → w.dsF = true → rising) ∧ (v.holdzeroF = true → w.holdzeroF = false → rising)

/-- The skipped rate check: a rising edge with a release nibble above the one the last TICK saw does the edge and the
counter's advance and nothing else; `prev_sr` is the register after every tick (R132). -/
def Obligations.SkippedRateCheck : Prop :=
  ∀ (c : Config) (r : VoiceRegs) (ratio : Nat) (v : VoiceState),
    (skipsCheck r v = true ↔ r.wg.getLsbD 0 = true ∧ v.prevGate = false ∧ v.prevSr.toNat % 16 < r.sr.toNat % 16) ∧
    (skipsCheck r v = true →
      envTick c r ratio v = { v with
        gateF := true, attackF := true, dsF := true, holdzeroF := false, prevGate := true
        prevSr := r.sr, rc := (v.rc + ratio) % (0x8000 * 2 ^ c.ratioFracBits) }) ∧
    (envTick c r ratio v).prevSr = r.sr

/-- Rate selection by the flags (R133, with the nibbles of 10_state.md R23). -/
def Obligations.RateIndexFollowsTheFlags : Prop :=
  ∀ (r : VoiceRegs) (v : VoiceState),
    (v.attackF = true → (rateIndex r v).toNat = r.ad.toNat / 16) ∧
    (v.attackF = false → v.dsF = true → (rateIndex r v).toNat = r.ad.toNat % 16) ∧
    (v.attackF = false → v.dsF = false → (rateIndex r v).toNat = r.sr.toNat % 16)

/-- The default rate periods (R134) and the default prescaler periods (R135), every entry; and every entry of a legal instance
is in its range. -/
def Obligations.PeriodTables : Prop :=
  (∀ clock nch, (List.range 16).map (fun k => ratePeriod (defaultConfig clock nch) (BitVec.ofNat 4 k)) =
    [9, 32, 63, 95, 149, 220, 267, 313, 392, 977, 1954, 3126, 3907, 11720, 19532, 31251]) ∧
  (∀ clock nch (level : BitVec 8),
    let e := expPeriod (defaultConfig clock nch) level
    (level = 0#8 → e = 1) ∧ (0x01 ≤ level.toNat → level.toNat ≤ 0x06 → e = 30) ∧
    (0x07 ≤ level.toNat → level.toNat ≤ 0x0E → e = 16) ∧ (0x0F ≤ level.toNat → level.toNat ≤ 0x1A → e = 8) ∧
    (0x1B ≤ level.toNat → level.toNat ≤ 0x36 → e = 4) ∧ (0x37 ≤ level.toNat → level.toNat ≤ 0x5D → e = 2) ∧
    (0x5E ≤ level.toNat → e = 1)) ∧
  ∀ (c : Config), configWf c = true →
    (∀ idx, 1 ≤ ratePeriod c idx ∧ ratePeriod c idx ≤ 0x7FFF) ∧ ∀ level, 1 ≤ expPeriod c level ∧ expPeriod c level ≤ 255

/-- The effective period and the step: the period and 1, or, when the period is shorter than the ratio, the ratio and
`ceil(ratio / period)` (R136). -/
def Obligations.EffectivePeriodAndStep : Prop :=
  (∀ (c : Config) (idx : BitVec 4), periodFx c idx = ratePeriod c idx * 2 ^ c.ratioFracBits) ∧
  ∀ pfx ratio : Nat, 0 < pfx →
    (ratio ≤ pfx → effPeriod pfx ratio = pfx ∧ envStep pfx ratio = 1) ∧
    (pfx < ratio → effPeriod pfx ratio = ratio ∧ ratio ≤ envStep pfx ratio * pfx ∧
      (envStep pfx ratio - 1) * pfx < ratio)

/-- The counter advances by the ratio modulo `0x8000 << RATIO_FRAC_BITS` (R137). Outside the crossing window, whose upper bound
is not reduced, or with the check skipped, a tick does the edge, the `prev_sr` update and the advance and nothing of the step
logic (R138). A crossing reduces the counter by the effective period; in attack the step logic then runs at once, otherwise
the prescaler counts and the step logic runs when the count reaches its period; a run of the step logic clears it (R139). -/
def Obligations.CrossingRunsThePrescaler : Prop :=
  ∀ (c : Config) (r : VoiceRegs) (ratio : Nat) (v : VoiceState),
    let rc := (v.rc + ratio) % (0x8000 * 2 ^ c.ratioFracBits)
    let pfx := ratePeriod c (rateIndex r (gateEdge r v)) * 2 ^ c.ratioFracBits
    let eff := effPeriod pfx ratio
    let advanced := { gateEdge r v with prevSr := r.sr, rc := rc }
    let reduced := { advanced with rc := rc - eff }
    let count := (v.expcnt.toNat + 1) % 256
    let cross := skipsCheck r v = false ∧ eff ≤ rc ∧ rc < eff + ratio
    (¬ cross → envTick c r ratio v = advanced) ∧
    (cross → advanced.attackF = true →
      envTick c r ratio v = { stepLogic r (envStep pfx ratio) reduced with expcnt := 0#8 }) ∧
    (cross → advanced.attackF = false → expPeriod c v.env ≤ count →
      envTick c r ratio v = { stepLogic r (envStep pfx ratio) reduced with expcnt := 0#8 }) ∧
    (cross → advanced.attackF = false → count < expPeriod c v.env →
      envTick c r ratio v = { reduced with expcnt := BitVec.ofNat 8 count })


/-- Hold-zero suppresses the step (R140). An attack step adds `step` and clamps at 255 (R141), and attack ends exactly
when 255 is reached, the voice then being in decay-sustain if `ds_f` is set (R142). -/
def Obligations.AttackStepClampsAndEnds : Prop :=
  ∀ (r : VoiceRegs) (step : Nat) (v : VoiceState),
    (v.holdzeroF = true → stepLogic r step v = v) ∧
    (v.holdzeroF = false → v.attackF = true →
      ∃ (env : BitVec 8), env.toNat = min 255 (v.env.toNat + step) ∧
        stepLogic r step v = { v with env := env, attackF := decide (env.toNat ≠ 255) } ∧
        (env.toNat = 255 → v.dsF = true → envPhase (stepLogic r step v) = .decaySustain))

/-- Decay-sustain moves the level only above `SUS × 17`, release always; the level drops by `step`, clamped at 0, and
hold-zero is set exactly when it drops from above 0 to 0 (R143). -/
def Obligations.DecayAndReleaseStep : Prop :=
  ∀ (r : VoiceRegs) (step : Nat) (v : VoiceState), v.holdzeroF = false → v.attackF = false →
    (v.dsF = true → v.env.toNat ≤ r.sr.toNat / 16 * 17 → stepLogic r step v = v) ∧
    (v.dsF = false ∨ r.sr.toNat / 16 * 17 < v.env.toNat →
      ∃ (env : BitVec 8), env.toNat = v.env.toNat - step ∧
        stepLogic r step v = { v with env := env, holdzeroF := decide (0 < v.env.toNat ∧ env.toNat = 0) })

/-- A tick raises a level only in attack and lowers it only outside attack (the flags as the gate edge leaves them), so no
voice is both in attack and falling (R139 to R143). -/
def Obligations.LevelRisesOnlyInAttack : Prop :=
  ∀ (c : Config) (r : VoiceRegs) (ratio : Nat) (v : VoiceState),
    (v.env.toNat < (envTick c r ratio v).env.toNat → (gateEdge r v).attackF = true) ∧
    ((envTick c r ratio v).env.toNat < v.env.toNat → (gateEdge r v).attackF = false)


/-- The staged envelope tick is the collected pseudocode of R147, in every legal instance. -/
def Obligations.EnvelopeTickIsTheCollectedOne : Prop :=
  ∀ (c : Config) (r : VoiceRegs) (ratio : Nat) (v : VoiceState), configWf c = true →
    envTick c r ratio v = envTickCollected c r ratio v


/-! ### Oscillator -/

/-- The accumulator's update (R162), with the step of R161 and the sync input of R164 sampled before it. -/
def Obligations.AccumulatorUpdate : Prop :=
  ∀ (c : Config) (r : VoiceRegs) (ratio : Nat) (id : VoiceId) (vs : Voices),
    let u := vs.get (syncSource c id)
    let v := vs.get id
    let w := (oscTick c r ratio id vs).get id
    let rise := u.acc.getLsbD 23 = true ∧ u.prevAcc.getLsbD 23 = false
    w.prevAcc = v.acc ∧
    (r.wg.getLsbD 3 = true ∨ (r.wg.getLsbD 1 = true ∧ rise) → w.acc = 0#24) ∧
    (¬ (r.wg.getLsbD 3 = true ∨ (r.wg.getLsbD 1 = true ∧ rise)) →
      w.acc.toNat = (v.acc.toNat + r.fq.toNat * ratio / 2 ^ c.ratioFracBits % 2 ^ 24) % 2 ^ 24)

/-- The designated neighbour voice under each setting (R163). -/
def Obligations.SyncSourceSettings : Prop :=
  ∀ c : Config,
    (c.syncSource = .observed → ∀ v, syncSource c v = .v1) ∧
    (c.syncSource = .predecessor → syncSource c .v1 = .v3 ∧ syncSource c .v2 = .v1 ∧ syncSource c .v3 = .v2) ∧
    (defaultConfig c.chipClock c.nch).syncSource = .observed

/-- ENV_TICK writes only the envelope fields of its voice (the head of 41_envelope.md); OSC_TICK writes `acc`, `prev_acc`,
`lfsr`, `prev_wf` and `out` of its own voice and nothing else (the head of 42_oscillator.md). -/
def Obligations.VoiceTickPartsKeepTheirFrames : Prop :=
  (∀ (c : Config) (r : VoiceRegs) (ratio : Nat) (v : VoiceState),
    let w := envTick c r ratio v
    w.acc = v.acc ∧ w.prevAcc = v.prevAcc ∧ w.lfsr = v.lfsr ∧ w.prevWf = v.prevWf ∧ w.out = v.out) ∧
  ∀ (c : Config) (r : VoiceRegs) (ratio : Nat) (id other : VoiceId) (vs : Voices),
    let v := vs.get id
    let w := (oscTick c r ratio id vs).get id
    (other ≠ id → (oscTick c r ratio id vs).get other = vs.get other) ∧
    w = { v with acc := w.acc, prevAcc := w.prevAcc, lfsr := w.lfsr, prevWf := w.prevWf, out := w.out }

/-- The noise register is clocked exactly once when the raw step exceeds the limit or bit 20 of the accumulator
toggled, whatever the waveform, and not at all otherwise (R170). -/
def Obligations.NoiseClockCondition : Prop :=
  (∀ (c : Config) (r : VoiceRegs) (ratio : Nat) (id : VoiceId) (vs : Voices),
    let v := vs.get id
    let w := (oscTick c r ratio id vs).get id
    let due := c.noiseStepLimit < r.fq.toNat * ratio / 2 ^ c.ratioFracBits ∨ w.acc.getLsbD 20 ≠ w.prevAcc.getLsbD 20
    (due → w.lfsr = lfsrClock v.lfsr) ∧ (¬ due → w.lfsr = v.lfsr)) ∧
  ∀ clock nch, (defaultConfig clock nch).noiseStepLimit = 0x100000

/-- One clock shifts toward bit 22 and feeds bit 22 xor bit 17 into bit 0 (R171). -/
def Obligations.NoiseRegisterShift : Prop :=
  ∀ l : BitVec 23,
    (lfsrClock l).getLsbD 0 = (l.getLsbD 22 ^^ l.getLsbD 17) ∧
    ∀ k, k < 22 → (lfsrClock l).getLsbD (k + 1) = l.getLsbD k

/-- A noise register that is 0 stays 0, and one that is not never becomes 0 (70_reset_and_hazards.md R273). -/
def Obligations.NoiseRegisterLocksOnlyAtZero : Prop :=
  ∀ l : BitVec 23, lfsrClock l = 0#23 ↔ l = 0#23

/-- The output of a tick, by the waveform field (R184, R186): the held value, the triangle of the accumulator after its update
with its source read after it, the saw and pulse shapes (R180, R181), `COMBINE` of the three (R183), the noise output read
after this tick's clock (R172), and 0 for noise with any other waveform (R173). -/
def Obligations.WaveformSelection : Prop :=
  ∀ (c : Config) (r : VoiceRegs) (ratio : Nat) (id : VoiceId) (vs : Voices),
    let ws := oscTick c r ratio id vs
    let w := ws.get id
    let wf := r.wg.toNat / 16
    let step := BitVec.ofNat 24 (r.fq.toNat * ratio / 2 ^ c.ratioFracBits)
    let high := BitVec.ofNat 16 (w.acc.toNat / 256)
    let tri := tri16 (ringed r ((ws.get (syncSource c id)).acc.getLsbD 23) w.acc)
    let saw := sawShape c high step
    let pulse := pulseShape c high (BitVec.ofNat 16 (r.pw.toNat * 16)) step
    (wf = 0 → w.out = (vs.get id).prevWf) ∧ (wf = 1 → w.out = tri) ∧ (wf = 2 → w.out = saw) ∧ (wf = 4 → w.out = pulse) ∧
    (wf = 3 ∨ wf = 5 ∨ wf = 6 ∨ wf = 7 → w.out = combine c (BitVec.ofNat 4 wf) tri saw pulse) ∧
    (wf = 8 → w.out = noise16 w.lfsr) ∧ (9 ≤ wf → w.out = 0#16)

/-- The noise output: bits 20, 18, 14, 11, 9, 5, 2, 0 of the register, bit 7 first, in the high byte, read after this tick's
clock (R172). -/
def Obligations.NoiseOutputBits : Prop :=
  (∀ (c : Config) (r : VoiceRegs) (ratio : Nat) (id : VoiceId) (vs : Voices), r.wg.toNat / 16 = 8 →
    ((oscTick c r ratio id vs).get id).out = noise16 ((oscTick c r ratio id vs).get id).lfsr) ∧
  ∀ l : BitVec 23,
    let y := noise16 l
    y.getLsbD 15 = l.getLsbD 20 ∧ y.getLsbD 14 = l.getLsbD 18 ∧ y.getLsbD 13 = l.getLsbD 14 ∧
    y.getLsbD 12 = l.getLsbD 11 ∧ y.getLsbD 11 = l.getLsbD 9 ∧ y.getLsbD 10 = l.getLsbD 5 ∧
    y.getLsbD 9 = l.getLsbD 2 ∧ y.getLsbD 8 = l.getLsbD 0 ∧ ∀ k, k < 8 → y.getLsbD k = false

/-- The default shapes: no saw correction (R180), a hard pulse edge with its corner cases (R181), the AND of the selected
components with the low four bits cleared (R183). -/
def Obligations.DefaultWaveShapes : Prop :=
  ∀ (clock nch : Nat) (s thr tri saw pulse : BitVec 16) (step : BitVec 24) (wf : BitVec 4),
    let c := defaultConfig clock nch
    sawShape c s step = s ∧
    (thr.toNat ≤ s.toNat → pulseShape c s thr step = 0xFFFF#16) ∧ (s.toNat < thr.toNat → pulseShape c s thr step = 0#16) ∧
    pulseShape c s 0#16 step = 0xFFFF#16 ∧ (pulseShape c s 0xFFF0#16 step = 0xFFFF#16 ↔ 0xFFF0 ≤ s.toNat) ∧
    ∀ k, (combine c wf tri saw pulse).getLsbD k = true ↔
      4 ≤ k ∧ k < 16 ∧ (wf.getLsbD 0 = true → tri.getLsbD k = true) ∧ (wf.getLsbD 1 = true → saw.getLsbD k = true) ∧
        (wf.getLsbD 2 = true → pulse.getLsbD k = true)

/-- The floating-DAC hold: with waveform field 0 the output is the held value and the memory is kept; otherwise the
output is stored in it, a noise-lock 0 too (R185). -/
def Obligations.FloatingDacHold : Prop :=
  ∀ (c : Config) (r : VoiceRegs) (ratio : Nat) (id : VoiceId) (vs : Voices),
    let v := vs.get id
    let w := (oscTick c r ratio id vs).get id
    (r.wg.toNat / 16 = 0 → w.out = v.prevWf ∧ w.prevWf = v.prevWf) ∧
    (r.wg.toNat / 16 ≠ 0 → w.prevWf = w.out) ∧
    (9 ≤ r.wg.toNat / 16 → w.out = 0#16 ∧ w.prevWf = 0#16)

/-- The triangle is the accumulator after its update, its top bit inverted when RING is set and the source voice's top bit
(after this voice's update) is 1, folded to 23 bits and shifted to 16; selected alone, it is the output (R175). -/
def Obligations.TriangleFoldsTheRingedAccumulator : Prop :=
  (∀ (r : VoiceRegs) (uMsb : Bool) (acc : BitVec 24),
    let inverts := r.wg.getLsbD 2 = true ∧ uMsb = true
    let t := if inverts then (if acc.toNat < 2 ^ 23 then acc.toNat + 2 ^ 23 else acc.toNat - 2 ^ 23) else acc.toNat
    (tri16 (ringed r uMsb acc)).toNat = (if t < 2 ^ 23 then t else 2 ^ 24 - 1 - t) / 2 ^ 7) ∧
  ∀ (c : Config) (r : VoiceRegs) (ratio : Nat) (id : VoiceId) (vs : Voices), r.wg.toNat / 16 = 1 →
    let ws := oscTick c r ratio id vs
    let acc := (ws.get id).acc.toNat
    let inverts := r.wg.getLsbD 2 = true ∧ (ws.get (syncSource c id)).acc.getLsbD 23 = true
    let t := if inverts then (if acc < 2 ^ 23 then acc + 2 ^ 23 else acc - 2 ^ 23) else acc
    (ws.get id).out.toNat = (if t < 2 ^ 23 then t else 2 ^ 24 - 1 - t) / 2 ^ 7


/-- Frequency 0 with TEST, SYNC and RING clear: the accumulator and the noise register keep their values, and the output
is constant from tick to tick (R188 a). -/
def Obligations.ZeroFrequencyHoldsTheOutput : Prop :=
  ∀ (c : Config) (r : VoiceRegs) (ratio : Nat) (id : VoiceId) (vs : Voices),
    r.fq = 0#16 → r.wg.getLsbD 1 = false → r.wg.getLsbD 2 = false → r.wg.getLsbD 3 = false →
    let ws := oscTick c r ratio id vs
    (ws.get id).acc = (vs.get id).acc ∧ (ws.get id).lfsr = (vs.get id).lfsr ∧
    ((oscTick c r ratio id ws).get id).out = (ws.get id).out

/-- The staged oscillator tick is the collected pseudocode of R187. -/
def Obligations.OscillatorTickIsTheCollectedOne : Prop :=
  ∀ (c : Config) (r : VoiceRegs) (ratio : Nat) (id : VoiceId) (vs : Voices),
    oscTick c r ratio id vs = oscTickCollected c r ratio id vs

/-! ### Mixer, filter, normalizer and binary64 -/

/-- Each rounded operation on finite operands gives the binary64 number nearest to the exact result, ties to even, and
an infinity exactly when that result is at least half a unit past the largest finite number (00_scope.md R13). -/
def Obligations.OperationsRoundToNearestEven : Prop :=
  ∀ (s t : Bool) (e e' : Fin 2047) (f f' : BitVec 52),
    let x := F64.finite s e f
    let y := F64.finite t e' f'
    let m := F64.signedUnits s e f
    let n := F64.signedUnits t e' f'
    let limit := (2 ^ 54 - 1) * 2 ^ 2044
    let rounds := fun (z : F64) (num : Int) (den : Nat) =>
      (num.natAbs < limit * den → NearestEven z num den) ∧
      (limit * den ≤ num.natAbs → z = .inf (decide (num < 0)))
    rounds (x.add y) (m + n) 1 ∧ rounds (x.sub y) (m - n) 1 ∧ rounds (x.mul y) (m * n) (2 ^ 1074) ∧
    (n ≠ 0 → rounds (x.div y) (m * 2 ^ 1074 * n.sign) n.natAbs)


/-- Every integer below 2^53 in magnitude converts exactly (R13), and a voice's contribution is the exact value
`(out - 32768) × env / 256` (43_filter_mixer.md R200). -/
def Obligations.IntegersAndContributionsAreExact : Prop :=
  (∀ n : Int, n.natAbs < 2 ^ 53 →
    ∃ s e f, F64.ofInt n = .finite s e f ∧ F64.signedUnits s e f = n * 2 ^ 1074) ∧
  ∀ v : VoiceState, ∃ s e f, contribution v = .finite s e f ∧
    F64.signedUnits s e f * 256 = ((v.out.toNat : Int) - 32768) * v.env.toNat * 2 ^ 1074

/-- Voice 3 off removes voice 3 from the sum when it is not routed to the filter, and has no effect when it is (R201). -/
def Obligations.VoiceThreeOffSilencesOnlyTheUnrouted : Prop :=
  ∀ (p : Params) (vs : Voices) (v : VoiceState) (b : BitVec 8),
    (p.typeVol.getLsbD 7 = true → p.res.getLsbD 2 = false → mixVoices p { vs with v3 := v } = mixVoices p vs) ∧
    (p.res.getLsbD 2 = true → mixVoices { p with typeVol := b } vs = mixVoices p vs)


/-- The filter's outputs and the sample of a TICK: the recurrence as the spec transcribes it, HP and BP subtracted and LP
added in that order when their bits are set, the bus divided by the output scale and multiplied by the volume, not
clamped (R206, R207, R210). -/
def Obligations.SampleSumsModesAndNormalises : Prop :=
  ∀ (n : Operand) (s : State), s.engine.init = true →
    ∃ t o, exec (.tick n) s = .next t ∧ t.outputs = o :: s.outputs ∧
      let mix := mixVoices s.params t.voices
      let cut := cutoffCoef s.cfg (cutoffArgs s.cfg s.params s.engine)
      let res := resonanceCoef s.cfg (resNibble s.params)
      let tmp := (mix.fin.add (s.filter.bp.mul res)).add s.filter.lp
      let hp := mix.fin.sub tmp
      let bp := s.filter.bp.sub (tmp.mul cut)
      let lp := s.filter.lp.add (bp.mul cut)
      let b1 := if s.params.typeVol.getLsbD 6 then mix.bus.sub hp else mix.bus
      let b2 := if s.params.typeVol.getLsbD 5 then b1.sub bp else b1
      let b3 := if s.params.typeVol.getLsbD 4 then b2.add lp else b2
      t.filter.bp = bp ∧ t.filter.lp = lp ∧
      o.y = (b3.div (F64.ofInt s.cfg.outputScale)).mul (F64.ofInt (s.params.typeVol.toNat % 16 : Nat))

/-- Volume 0 with the filter modes off gives a zero sample, in every legal instance and whatever the voices hold (R212 a;
the silent start of 70_reset_and_hazards.md R272). -/
def Obligations.VolumeZeroIsSilent : Prop :=
  ∀ (n : Operand) (s : State), s.engine.init = true → configWf s.cfg = true → s.params.typeVol.toNat % 128 = 0 →
    ∃ t o neg, exec (.tick n) s = .next t ∧ t.outputs = o :: s.outputs ∧ o.y = .finite neg 0 0#52

/-- The staged mixer and filter are the collected pseudocode of R211. -/
def Obligations.MixerIsTheCollectedOne : Prop :=
  ∀ (c : Config) (p : Params) (e : EngineState) (vs : Voices) (f : FilterState),
    (mixSample c p e vs f, nextFilter c p e vs f) = mixFilterCollected c p e vs f

/-! ### Reset and invariants -/

/-- A reset with a positive rate sets every field of P, V, F and S to its value of 70_reset_and_hazards.md R272, with
`S.init = 1` and no fault, and the next command of the stream is then the first one applied; with a rate of 0 it records
ConfigError(SampleRateNotPositive) and leaves `S.init = 0` (R271). -/
def Obligations.ResetSetsEveryField : Prop :=
  ∀ (c : Config) (rate : BitVec 24) (s : State),
    let t := hostReset c rate s
    let quiet : VoiceState := { acc := 0#24, prevAcc := 0#24, env := 0#8, gateF := false, attackF := false, dsF := false, holdzeroF := false, rc := 0, expcnt := 0#8, prevSr := 0#8, lfsr := c.lfsrSeed, prevWf := 0#16, prevGate := false, out := 0#16 }
    let plus0 := F64.finite false 0 0#52
    (rate ≠ 0#24 →
      t.cfg = c ∧
      t.params = ⟨⟨0#16, 0#12, 0#8, 0#8, 0#8⟩, ⟨0#16, 0#12, 0#8, 0#8, 0#8⟩, ⟨0#16, 0#12, 0#8, 0#8, 0#8⟩, 0#8, 0#8, 0#8, 0#8⟩ ∧
      t.voices = ⟨quiet, quiet, quiet⟩ ∧ t.filter = ⟨plus0, plus0⟩ ∧
      t.engine = { sampleRate := rate, ratioFx := c.chipClock * 2 ^ c.ratioFracBits / rate.toNat, kc6581 := (cutoffRatio c rate).1, kc8580 := (cutoffRatio c rate).2, frame := 0, init := true, fault := none } ∧
      ∀ w rest, t.stream = w :: rest → step t = exec (decode w) { t with stream := rest }) ∧
    (rate = 0#24 → t.engine.fault = some ⟨.sampleRateNotPositive, .reset⟩ ∧ t.engine.init = false)


/-- The invariant holds after the reset that constructs a legal instance, and of `State.reset`, whose instance is the model's
choice (log entry 2). At a rate of 0 the spec gives only the fault and `S.init = 0` (R271): the fields of which the
statement speaks are then those before any reset, which are the model's choice (log entry 8). What a later
re-initialisation at a rate of 0 leaves is the model's choice too (log entry 9), and no part of this statement. -/
def Obligations.InvariantHoldsAtReset : Prop :=
  (∀ (c : Config) (rate : BitVec 24), configWf c = true → Inv (State.resetWith c rate)) ∧ Inv State.reset

/-- Every step keeps the invariant: the rate counters stay below their modulus (10_state.md R30), no noise register locks
up, the flags encode an envelope state and agree with the gate (R27), hold-zero means level 0 (R144), and an initialised
engine's constants are those of its sample rate (R24). That there is a step with no command pending is the model's choice
(log entry 7). -/
def Obligations.StepKeepsTheInvariant : Prop :=
  ∀ s t : State, Inv s → step s = .next t → Inv t

/-- An initialised block with no fault, whose pending commands set no zero sample rate, never faults: every step answers a
next state, of which the same holds (60_exceptions.md R250). That there is a step at all with no command pending is the
model's choice (log entry 7); R259 says only that the block then holds its state. -/
def Obligations.SteadyOperationNeverFaults : Prop :=
  ∀ s : State, SafeRun s → ∃ t, step s = .next t ∧ SafeRun t
end

