-- ==== Sys2Proof/Laws/Assembler.lean ====
section
/-!
SUPPORT. Sys2Proof/Laws/Assembler.lean: what an update expands to (30_encoding.md R89): each known key once, null and
unknown keys to nothing.
-/

namespace Sys2Proof.Machine

theorem mem_updateKeys (k : UpdateKey) : k ∈ updateKeys := by
  cases k with
  | voice f id => cases f <;> cases id <;> decide
  | global g => cases g <;> decide
  | sampleRate => decide

theorem updateKeys_nodup : updateKeys.Nodup := by decide

/-- No two keys are spelt alike. -/
theorem UpdateKey.name_injective {k k' : UpdateKey} (h : k.name = k'.name) : k = k' := by
  have pairs : ∀ a ∈ updateKeys, ∀ b ∈ updateKeys, a.name = b.name → a = b := by decide
  exact pairs k (mem_updateKeys k) k' (mem_updateKeys k') h

theorem Update.value_cons (e : List Char × Option Operand) (es : List (List Char × Option Operand)) (k : UpdateKey) :
    Update.value ⟨e :: es⟩ k = if e.1 = k.name then e.2 else Update.value ⟨es⟩ k := by
  by_cases h : e.1 = k.name <;> simp [Update.value, h]

theorem mem_writeOf {i : Instr} {k : UpdateKey} {v : Option Operand} : i ∈ writeOf k v ↔ ∃ n, v = some n ∧ i = k.write n := by
  cases v <;> simp [writeOf]

/-- The commands of an update are the writes of the known keys that it gives a value, and no others. -/
theorem Update.mem_expand {u : Update} {i : Instr} : i ∈ u.expand ↔ ∃ k n, u.value k = some n ∧ i = k.write n := by
  simp [Update.expand, mem_writeOf, mem_updateKeys]

/-- An entry under a name that is no key expands to nothing. -/
theorem Update.expand_unknown {name : List Char} (v : Option Operand) (es : List (List Char × Option Operand))
    (h : ∀ k : UpdateKey, name ≠ k.name) : Update.expand ⟨(name, v) :: es⟩ = Update.expand ⟨es⟩ := by
  simp [Update.expand, Update.value_cons, h]

/-- A key with a value expands to its write; a null key to none, since the mapping holds it once. -/
theorem Update.value_entry (k : UpdateKey) (v : Option Operand) (es : List (List Char × Option Operand)) :
    Update.value ⟨(k.name, v) :: es⟩ k = v := by
  simp [Update.value_cons]

/-- A key written twice is refused: the mapping read from entries holds each key at most once. -/
theorem updateOf_nodup {es : List (List Char × Option Nat)} {u : Update} (h : updateOf es = some u) :
    (u.entries.map Prod.fst).Nodup ∧ u.entries.map Prod.fst = es.map Prod.fst := by
  induction es generalizing u with
  | nil => cases h; exact ⟨List.nodup_nil, rfl⟩
  | cons e es ih =>
    obtain ⟨rest, hr, hu⟩ := Option.bind_eq_some_iff.mp h
    obtain ⟨distinct, keys⟩ := ih hr
    split at hu
    · cases hu
    · rename_i absent
      have fresh : e.1 ∉ rest.entries.map Prod.fst := fun mem => absent (List.contains_iff_mem.mpr mem)
      have shape : u.entries.map Prod.fst = e.1 :: rest.entries.map Prod.fst := by
        split at hu
        · cases hu; rfl
        · obtain ⟨x, -, hx⟩ := Option.map_eq_some_iff.mp hu
          cases hx; rfl
      rw [shape]
      exact ⟨List.nodup_cons.mpr ⟨fresh, distinct⟩, by rw [keys, List.map_cons]⟩

end Sys2Proof.Machine
end

