-- ==== Sys2Proof/Laws/Binary64.lean ====
section
/-!
SUPPORT. Sys2Proof/Laws/Binary64.lean: what the rounding functions can answer, said once.
-/

namespace Sys2Proof

theorem oneUnits_eq : F64.oneUnits = 2 ^ 1074 := by
  unfold F64.oneUnits
  exact Eq.refl _

theorem pos_of_eq_two_pow {x n : Nat} (h : x = 2 ^ n) : 0 < x := h ▸ Nat.two_pow_pos n

theorem oneUnits_pos : 0 < F64.oneUnits := pos_of_eq_two_pow oneUnits_eq

/-- Rounding is exact on a multiple. -/
theorem roundHalfEven_mul (q d : Nat) (h : 0 < d) : roundHalfEven (q * d) d = q := by
  simp [roundHalfEven, Nat.mul_div_cancel _ h, h]

/-- A rounded quotient is the floor or one above it. -/
theorem roundHalfEven_cases (n d : Nat) : roundHalfEven n d = n / d ∨ roundHalfEven n d = n / d + 1 := by
  unfold roundHalfEven
  split
  · exact .inl rfl
  · split
    · exact .inr rfl
    · split
      · exact .inl rfl
      · exact .inr rfl

/-- Below the overflow threshold the number with the given exponent and fraction bits is finite. -/
theorem ofMagnitude_finite (neg : Bool) (bits : Nat) (h : bits / 2 ^ 52 < 2047) :
    F64.ofMagnitude neg bits = .finite neg ⟨bits / 2 ^ 52, h⟩ (BitVec.ofNat 52 bits) := dif_pos h

/-- From the overflow threshold on it is an infinity. -/
theorem ofMagnitude_inf (neg : Bool) (bits : Nat) (h : ¬ bits / 2 ^ 52 < 2047) :
    F64.ofMagnitude neg bits = .inf neg := dif_neg h

@[simp] theorem neg_neg_f64 (x : F64) : x.neg.neg = x := by
  cases x <;> simp [F64.neg]

theorem units_subnormal (frac : BitVec 52) : F64.units 0 frac = frac.toNat := rfl

end Sys2Proof
end

