-- ==== Sys2Proof/Laws/Decode.lean ====
section
/-!
SUPPORT. Sys2Proof/Laws/Decode.lean: a word and its two fields, and the decoder on an unlisted key.
-/

namespace Sys2Proof

@[simp] theorem valueOf_wordOf (key : Key) (n : Operand) : valueOf (wordOf key n) = n := by
  refine BitVec.eq_of_getLsbD_eq fun i hi => ?_
  have append : (wordOf key n).getLsbD i = _ := BitVec.getLsbD_append
  simpa [valueOf, hi] using append

@[simp] theorem keyOf_wordOf (key : Key) (n : Operand) : keyOf (wordOf key n) = key := by
  refine BitVec.eq_of_getLsbD_eq fun i hi => ?_
  have append : (wordOf key n).getLsbD (24 + i) = _ := BitVec.getLsbD_append
  simpa [keyOf, hi] using append

theorem wordOf_fields (w : CmdWord) : wordOf (keyOf w) (valueOf w) = w := by
  refine BitVec.eq_of_getLsbD_eq fun i hi => ?_
  have append : (wordOf (keyOf w) (valueOf w)).getLsbD i = _ := BitVec.getLsbD_append
  rw [append]
  by_cases h : i < 24
  · simp [valueOf, h]
  · have high : 24 + (i - 24) = i := by omega
    have bound : i - 24 < 8 := by omega
    simp [keyOf, h, high, bound]

theorem decode_wordOf (key : Key) (n : Operand) : decode (wordOf key n) = decodeKey key n := by
  rw [decode, keyOf_wordOf, valueOf_wordOf]

/-- A key that R83 does not list decodes to NOP. -/
theorem decodeKey_unlisted (key : Key) (n : Operand) (h : listedKeys.contains key = false) :
    decodeKey key n = .nop key n := by
  simp only [listedKeys, List.contains_cons, List.contains_nil, Bool.or_eq_false_iff, beq_eq_false_iff_ne, ne_eq] at h
  simp only [decodeKey, h, if_false]

/-- A property of every key holds if it holds of the listed keys and of every unlisted one. -/
theorem key_cases {P : Key → Prop} (key : Key) (listed : ∀ k ∈ listedKeys, P k)
    (unlisted : listedKeys.contains key = false → P key) : P key := by
  cases h : listedKeys.contains key with
  | true => exact listed key (List.contains_iff_mem.mp h)
  | false => exact unlisted h

end Sys2Proof
end

