-- ==== Sys2Proof/Laws/State.lean ====
section
/-!
SUPPORT. Sys2Proof/Laws/State.lean: one lemma per field per update of the state, so that no proof unfolds a record update.
-/

namespace Sys2Proof.Machine

open Sys2Proof

/-! ### setParams -/

@[simp] theorem setParams_cfg (p : Params) (s : State) : (setParams p s).cfg = s.cfg := rfl
@[simp] theorem setParams_params (p : Params) (s : State) : (setParams p s).params = p := rfl
@[simp] theorem setParams_voices (p : Params) (s : State) : (setParams p s).voices = s.voices := rfl
@[simp] theorem setParams_filter (p : Params) (s : State) : (setParams p s).filter = s.filter := rfl
@[simp] theorem setParams_engine (p : Params) (s : State) : (setParams p s).engine = s.engine := rfl
@[simp] theorem setParams_stream (p : Params) (s : State) : (setParams p s).stream = s.stream := rfl
@[simp] theorem setParams_outputs (p : Params) (s : State) : (setParams p s).outputs = s.outputs := rfl

/-! ### setEngine -/

@[simp] theorem setEngine_cfg (e : EngineState) (s : State) : (setEngine e s).cfg = s.cfg := rfl
@[simp] theorem setEngine_params (e : EngineState) (s : State) : (setEngine e s).params = s.params := rfl
@[simp] theorem setEngine_voices (e : EngineState) (s : State) : (setEngine e s).voices = s.voices := rfl
@[simp] theorem setEngine_filter (e : EngineState) (s : State) : (setEngine e s).filter = s.filter := rfl
@[simp] theorem setEngine_engine (e : EngineState) (s : State) : (setEngine e s).engine = e := rfl
@[simp] theorem setEngine_stream (e : EngineState) (s : State) : (setEngine e s).stream = s.stream := rfl
@[simp] theorem setEngine_outputs (e : EngineState) (s : State) : (setEngine e s).outputs = s.outputs := rfl

/-! ### emit, hostSend, withFetchWord -/

@[simp] theorem emit_cfg (y : F64) (m : Bool) (s : State) : (emit y m s).cfg = s.cfg := rfl
@[simp] theorem emit_params (y : F64) (m : Bool) (s : State) : (emit y m s).params = s.params := rfl
@[simp] theorem emit_voices (y : F64) (m : Bool) (s : State) : (emit y m s).voices = s.voices := rfl
@[simp] theorem emit_filter (y : F64) (m : Bool) (s : State) : (emit y m s).filter = s.filter := rfl
@[simp] theorem emit_engine (y : F64) (m : Bool) (s : State) : (emit y m s).engine = s.engine := rfl
@[simp] theorem emit_stream (y : F64) (m : Bool) (s : State) : (emit y m s).stream = s.stream := rfl
@[simp] theorem emit_outputs (y : F64) (m : Bool) (s : State) : (emit y m s).outputs = ⟨y, m⟩ :: s.outputs := rfl

@[simp] theorem hostSend_cfg (ws : List CmdWord) (s : State) : (hostSend ws s).cfg = s.cfg := rfl
@[simp] theorem hostSend_params (ws : List CmdWord) (s : State) : (hostSend ws s).params = s.params := rfl
@[simp] theorem hostSend_voices (ws : List CmdWord) (s : State) : (hostSend ws s).voices = s.voices := rfl
@[simp] theorem hostSend_filter (ws : List CmdWord) (s : State) : (hostSend ws s).filter = s.filter := rfl
@[simp] theorem hostSend_engine (ws : List CmdWord) (s : State) : (hostSend ws s).engine = s.engine := rfl
@[simp] theorem hostSend_stream (ws : List CmdWord) (s : State) : (hostSend ws s).stream = s.stream ++ ws := rfl
@[simp] theorem hostSend_outputs (ws : List CmdWord) (s : State) : (hostSend ws s).outputs = s.outputs := rfl

@[simp] theorem withFetchWord_cfg (s : State) (nbits w : Nat) : (s.withFetchWord nbits w).cfg = s.cfg := rfl
@[simp] theorem withFetchWord_params (s : State) (nbits w : Nat) : (s.withFetchWord nbits w).params = s.params := rfl
@[simp] theorem withFetchWord_voices (s : State) (nbits w : Nat) : (s.withFetchWord nbits w).voices = s.voices := rfl
@[simp] theorem withFetchWord_filter (s : State) (nbits w : Nat) : (s.withFetchWord nbits w).filter = s.filter := rfl
@[simp] theorem withFetchWord_engine (s : State) (nbits w : Nat) : (s.withFetchWord nbits w).engine = s.engine := rfl
@[simp] theorem withFetchWord_stream (s : State) (nbits w : Nat) :
    (s.withFetchWord nbits w).stream = BitVec.ofNat 32 (w % 2 ^ nbits) :: s.stream := rfl
@[simp] theorem withFetchWord_outputs (s : State) (nbits w : Nat) : (s.withFetchWord nbits w).outputs = s.outputs := rfl

/-! ### EngineState.withRate, frameTick -/

@[simp] theorem withRate_sampleRate (c : Config) (n : BitVec 24) (e : EngineState) : (e.withRate c n).sampleRate = n := rfl
@[simp] theorem withRate_ratioFx (c : Config) (n : BitVec 24) (e : EngineState) :
    (e.withRate c n).ratioFx = clockRatio c n := rfl
@[simp] theorem withRate_kc6581 (c : Config) (n : BitVec 24) (e : EngineState) :
    (e.withRate c n).kc6581 = (cutoffRatio c n).1 := rfl
@[simp] theorem withRate_kc8580 (c : Config) (n : BitVec 24) (e : EngineState) :
    (e.withRate c n).kc8580 = (cutoffRatio c n).2 := rfl
@[simp] theorem withRate_frame (c : Config) (n : BitVec 24) (e : EngineState) : (e.withRate c n).frame = e.frame := rfl
@[simp] theorem withRate_init (c : Config) (n : BitVec 24) (e : EngineState) : (e.withRate c n).init = e.init := rfl
@[simp] theorem withRate_fault (c : Config) (n : BitVec 24) (e : EngineState) : (e.withRate c n).fault = e.fault := rfl

@[simp] theorem frameTick_sampleRate (e : EngineState) : (frameTick e).sampleRate = e.sampleRate := rfl
@[simp] theorem frameTick_ratioFx (e : EngineState) : (frameTick e).ratioFx = e.ratioFx := rfl
@[simp] theorem frameTick_kc6581 (e : EngineState) : (frameTick e).kc6581 = e.kc6581 := rfl
@[simp] theorem frameTick_kc8580 (e : EngineState) : (frameTick e).kc8580 = e.kc8580 := rfl
@[simp] theorem frameTick_init (e : EngineState) : (frameTick e).init = e.init := rfl
@[simp] theorem frameTick_fault (e : EngineState) : (frameTick e).fault = e.fault := rfl

/-! ### Voices and their registers -/

@[simp] theorem regs_setRegs_self (p : Params) (r : VoiceRegs) (id : VoiceId) : (p.setRegs r id).regs id = r := by
  cases id <;> rfl

theorem regs_setRegs_ne (p : Params) (r : VoiceRegs) {id other : VoiceId} (h : other ≠ id) :
    (p.setRegs r id).regs other = p.regs other := by
  cases id <;> cases other <;> first | rfl | exact absurd rfl h

@[simp] theorem setRegs_cutL (p : Params) (r : VoiceRegs) (id : VoiceId) : (p.setRegs r id).cutL = p.cutL := by
  cases id <;> rfl
@[simp] theorem setRegs_cutH (p : Params) (r : VoiceRegs) (id : VoiceId) : (p.setRegs r id).cutH = p.cutH := by
  cases id <;> rfl
@[simp] theorem setRegs_res (p : Params) (r : VoiceRegs) (id : VoiceId) : (p.setRegs r id).res = p.res := by
  cases id <;> rfl
@[simp] theorem setRegs_typeVol (p : Params) (r : VoiceRegs) (id : VoiceId) : (p.setRegs r id).typeVol = p.typeVol := by
  cases id <;> rfl

@[simp] theorem get_set_self (vs : Voices) (v : VoiceState) (id : VoiceId) : (vs.set v id).get id = v := by
  cases id <;> rfl

theorem get_set_ne (vs : Voices) (v : VoiceState) {id other : VoiceId} (h : other ≠ id) :
    (vs.set v id).get other = vs.get other := by
  cases id <;> cases other <;> first | rfl | exact absurd rfl h

@[simp] theorem set_set (vs : Voices) (v w : VoiceState) (id : VoiceId) : (vs.set v id).set w id = vs.set w id := by
  cases id <;> rfl

end Sys2Proof.Machine
end

