-- ==== Sys2Proof/Laws/Exec.lean ====
section
/-!
SUPPORT. Sys2Proof/Laws/Exec.lean: what each shared operation, a command and a step can do, said once.
-/

namespace Sys2Proof.Machine

open Sys2Proof

/-- A fetch takes the head of the stream, or finds none. -/
theorem fetch_cases (s : State) :
    (s.stream = [] ∧ fetch s = none) ∨
    ∃ w rest, s.stream = w :: rest ∧ fetch s = some (w, { s with stream := rest }) := by
  cases h : s.stream with
  | nil => exact .inl ⟨rfl, by simp [fetch, h]⟩
  | cons w rest => exact .inr ⟨w, rest, rfl, by simp [fetch, h]⟩

@[simp] theorem raiseConfigError_engine (k : ConfigError) (w : CmdWord) (s : State) :
    (raiseConfigError k w s).engine = { s.engine with fault := some ⟨k, .command w⟩ } := rfl

@[simp] theorem setSampleRate_engine (n : BitVec 24) (s : State) :
    (setSampleRate n s).engine = s.engine.withRate s.cfg n := rfl

/-- What a command can do: change registers alone, set a positive sample rate, record a fault, or tick. -/
theorem exec_cases {i : Instr} {s t : State} (h : exec i s = .next t) :
    ((∀ n, i ≠ .tick n) ∧ ∃ p, t = setParams p s) ∨
    (∃ n, i = .setSr n ∧ n ≠ 0#24 ∧ t = setSampleRate n s) ∨
    (∃ n, i = .setSr n ∧ n = 0#24 ∧ t = raiseConfigError .sampleRateNotPositive (wordOf 0x50#8 n) s) ∨
    (∃ n, i = .tick n ∧ s.engine.init = true ∧ t = tickState s) ∨
    (∃ n, i = .tick n ∧ s.engine.init = false ∧ t = raiseConfigError .notInitialized (wordOf 0x80#8 n) s) := by
  cases i with
  | tick n =>
    cases hi : s.engine.init with
    | true =>
      have : t = tickState s := by simpa [exec, execTick, hi] using h.symm
      exact .inr (.inr (.inr (.inl ⟨n, rfl, rfl, this⟩)))
    | false =>
      have : t = raiseConfigError .notInitialized (wordOf 0x80#8 n) s := by simpa [exec, execTick, hi] using h.symm
      exact .inr (.inr (.inr (.inr ⟨n, rfl, rfl, this⟩)))
  | setSr n =>
    by_cases hn : n = 0#24
    · have : t = raiseConfigError .sampleRateNotPositive (wordOf 0x50#8 n) s := by
        simpa only [exec, execSetSr, hn, if_true, Host.Outcome.next.injEq, eq_comm] using h.symm
      exact .inr (.inr (.inl ⟨n, rfl, hn, this⟩))
    · have : t = setSampleRate n s := by simpa [exec, execSetSr, hn] using h.symm
      exact .inr (.inl ⟨n, rfl, hn, this⟩)
  | _ => cases h; exact .inl ⟨fun _ => Instr.noConfusion, _, rfl⟩

/-- What the host's reset can do: every field of P, V, F and S is reset, or S.fault and S.init alone are written. -/
theorem hostReset_cases (c : Config) (rate : BitVec 24) (s : State) :
    (rate = 0#24 ∧ hostReset c rate s = setEngine s.engine.resetFailed s) ∨
    (rate ≠ 0#24 ∧ hostReset c rate s =
      ⟨c, Params.zero, resetVoices c, FilterState.zero, resetEngine c rate, s.stream, s.outputs⟩) := by
  by_cases h : rate = 0#24
  · exact .inl ⟨h, if_pos h⟩
  · refine .inr ⟨h, ?_⟩
    simp only [hostReset, State.resetWith, if_neg h]

/-- A failed reset keeps the invariant: the parameters that its bounds rest on stand. -/
theorem hostReset_zero_inv (c : Config) {s : State} (h : Inv s) : Inv (hostReset c 0#24 s) := by
  have off : (hostReset c 0#24 s).engine.init = true → False := Bool.noConfusion
  exact ⟨h.cfg_wf, h.voices, ⟨fun hi => (off hi).elim, fun hi => (off hi).elim, fun hi => (off hi).elim⟩⟩

/-- Every reset, failed or not and into any parameters, keeps the rate counters below their modulus (10_state.md R30). -/
theorem hostReset_rc_lt (c : Config) (rate : BitVec 24) {s : State} (id : VoiceId)
    (h : (s.voices.get id).rc < rcModulus s.cfg) :
    ((hostReset c rate s).voices.get id).rc < rcModulus (hostReset c rate s).cfg := by
  rcases hostReset_cases c rate s with ⟨-, e⟩ | ⟨-, e⟩
  · rw [e]
    exact h
  · rw [e]
    have zero : ((resetVoices c).get id).rc = 0 := by cases id <;> rfl
    exact zero ▸ Nat.mul_pos (by decide) (Nat.two_pow_pos _)

/-- What a step that answers a next state can be: nothing pending, or the head of the stream applied. -/
theorem step_cases {s t : State} (h : step s = .next t) :
    s.engine.fault = none ∧
    ((s.stream = [] ∧ t = s) ∨
     ∃ w rest, s.stream = w :: rest ∧ exec (decode w) { s with stream := rest } = .next t) := by
  unfold step at h
  cases hf : s.engine.fault with
  | some r => simp [hf] at h
  | none =>
    refine ⟨rfl, ?_⟩
    rcases fetch_cases s with ⟨hs, he⟩ | ⟨w, rest, hs, he⟩
    · exact .inl ⟨hs, by simpa [hf, he] using h.symm⟩
    · exact .inr ⟨w, rest, hs, by simpa [hf, he] using h⟩

end Sys2Proof.Machine
end

