-- ==== Sys2Proof/Laws/Mixer.lean ====
section
/-!
SUPPORT. Sys2Proof/Laws/Mixer.lean: the register fields as parts of their bytes, the filter input and the bus of a tick in
closed form, and what a parameter list can answer.
-/

namespace Sys2Proof.Machine

open Sys2Proof

/-! ### Fields of a byte -/

theorem low_nibble_toNat (x : BitVec 8) : (x.extractLsb' 0 4).toNat = x.toNat % 16 := by
  simp

theorem high_nibble_toNat (x : BitVec 8) : (x.extractLsb' 4 4).toNat = x.toNat / 16 := by
  have := x.isLt
  simp [Nat.shiftRight_eq_div_pow]
  omega

theorem cutLow_toNat (p : Params) : (cutLow p).toNat = p.cutL.toNat % 8 := by
  simp [cutLow]

/-! ### Parameter lists -/

/-- A parameter's value is the default, or one that the list gives. -/
theorem lookupOr_cases {α β : Type} [DecidableEq α] (dflt : α → β) (l : List (α × β)) (a : α) :
    lookupOr dflt l a = dflt a ∨ ∃ e ∈ l, lookupOr dflt l a = e.2 := by
  induction l with
  | nil => exact .inl rfl
  | cons e rest ih =>
    by_cases h : a = e.1
    · exact .inr ⟨e, List.mem_cons_self, if_pos h⟩
    · have step : lookupOr dflt (e :: rest) a = lookupOr dflt rest a := if_neg h
      rw [step]
      exact ih.imp id fun ⟨b, hb, eq⟩ => ⟨b, List.mem_cons_of_mem _ hb, eq⟩

/-! ### The mixer -/

/-- The sum with a voice's contribution if `cond`, else the sum. -/
def addIf (cond : Bool) (v : VoiceState) (x : F64) : F64 := if cond then F64.add x (contribution v) else x

/-- The filter input and the bus, each voice added in order where it is routed. -/
theorem mixVoices_eq (p : Params) (vs : Voices) :
    mixVoices p vs = ⟨
      addIf (routeBit p .v3) vs.v3 (addIf (routeBit p .v2) vs.v2 (addIf (routeBit p .v1) vs.v1 F64.zero)),
      addIf (!routeBit p .v3 && !voice3Off p) vs.v3
        (addIf (!routeBit p .v2) vs.v2 (addIf (!routeBit p .v1) vs.v1 F64.zero))⟩ := by
  unfold mixVoices routeVoice addIf
  cases routeBit p .v1 <;> cases routeBit p .v2 <;> cases routeBit p .v3 <;> cases voice3Off p <;> simp [Voices.get]

end Sys2Proof.Machine
end

