-- ==== Sys2Proof/Laws/PerInstr.lean ====
section
/-!
SUPPORT. Sys2Proof/Laws/PerInstr.lean: the family EncodedOperand: the low 24 bits of a command's word are its VALUE
field, one lemma per constructor of Instr.
-/

namespace Sys2Proof.Laws.EncodedOperand

open Sys2Proof

/-- The VALUE field of a command (30_encoding.md R81). -/
def operand : Instr → Operand
  | .wrFq1 n | .wrFq2 n | .wrFq3 n | .wrPw1 n | .wrPw2 n | .wrPw3 n | .wrWg1 n | .wrWg2 n | .wrWg3 n => n
  | .wrAd1 n | .wrAd2 n | .wrAd3 n | .wrSr1 n | .wrSr2 n | .wrSr3 n => n
  | .wrCutl n | .wrCuth n | .wrRes n | .wrTypevol n | .setSr n | .tick n | .nop _ n => n

def Statement (i : Instr) : Prop := valueOf (encode i) = operand i

theorem wrFq1 (n : Operand) : Statement (.wrFq1 n) := valueOf_wordOf _ n
theorem wrFq2 (n : Operand) : Statement (.wrFq2 n) := valueOf_wordOf _ n
theorem wrFq3 (n : Operand) : Statement (.wrFq3 n) := valueOf_wordOf _ n
theorem wrPw1 (n : Operand) : Statement (.wrPw1 n) := valueOf_wordOf _ n
theorem wrPw2 (n : Operand) : Statement (.wrPw2 n) := valueOf_wordOf _ n
theorem wrPw3 (n : Operand) : Statement (.wrPw3 n) := valueOf_wordOf _ n
theorem wrWg1 (n : Operand) : Statement (.wrWg1 n) := valueOf_wordOf _ n
theorem wrWg2 (n : Operand) : Statement (.wrWg2 n) := valueOf_wordOf _ n
theorem wrWg3 (n : Operand) : Statement (.wrWg3 n) := valueOf_wordOf _ n
theorem wrAd1 (n : Operand) : Statement (.wrAd1 n) := valueOf_wordOf _ n
theorem wrAd2 (n : Operand) : Statement (.wrAd2 n) := valueOf_wordOf _ n
theorem wrAd3 (n : Operand) : Statement (.wrAd3 n) := valueOf_wordOf _ n
theorem wrSr1 (n : Operand) : Statement (.wrSr1 n) := valueOf_wordOf _ n
theorem wrSr2 (n : Operand) : Statement (.wrSr2 n) := valueOf_wordOf _ n
theorem wrSr3 (n : Operand) : Statement (.wrSr3 n) := valueOf_wordOf _ n
theorem wrCutl (n : Operand) : Statement (.wrCutl n) := valueOf_wordOf _ n
theorem wrCuth (n : Operand) : Statement (.wrCuth n) := valueOf_wordOf _ n
theorem wrRes (n : Operand) : Statement (.wrRes n) := valueOf_wordOf _ n
theorem wrTypevol (n : Operand) : Statement (.wrTypevol n) := valueOf_wordOf _ n
theorem setSr (n : Operand) : Statement (.setSr n) := valueOf_wordOf _ n
theorem tick (n : Operand) : Statement (.tick n) := valueOf_wordOf _ n
theorem nop (key : Key) (n : Operand) : Statement (.nop key n) := valueOf_wordOf key n

end Sys2Proof.Laws.EncodedOperand
end

