-- ==== Sys2Proof/Laws/Rounding.lean ====
section
/-!
SUPPORT. Sys2Proof/Laws/Rounding.lean: what `F64.ofQuotient` answers, said once: below the overflow threshold the finite number
nearest to the quotient, ties to even, and an infinity from the threshold on.
-/

namespace Sys2Proof

open Sys2Proof.Machine

/-- The rounded quotient is within half a divisor, and even when it is exactly half a divisor away. -/
theorem roundHalfEven_error (n d : Nat) (hd : 0 < d) :
    2 * (roundHalfEven n d * d) ≤ 2 * n + d ∧ 2 * n ≤ 2 * (roundHalfEven n d * d) + d ∧
    (2 * (roundHalfEven n d * d) = 2 * n + d ∨ 2 * n = 2 * (roundHalfEven n d * d) + d → roundHalfEven n d % 2 = 0) := by
  have e := Nat.div_add_mod n d
  have hlt := Nat.mod_lt n hd
  rw [Nat.mul_comm] at e
  have succ : (n / d + 1) * d = n / d * d + d := Nat.succ_mul _ _
  unfold roundHalfEven
  split
  · omega
  · split
    · rw [succ]; omega
    · split
      · omega
      · rw [succ]; omega

/-- No other whole number is nearer than the rounded quotient, and it is even where another is as near. -/
theorem roundHalfEven_nearest (n d : Nat) (hd : 0 < d) (j : Nat) :
    ((roundHalfEven n d * d : Nat) - n : Int).natAbs ≤ ((j * d : Nat) - n : Int).natAbs ∧
    (((roundHalfEven n d * d : Nat) - n : Int).natAbs = ((j * d : Nat) - n : Int).natAbs → roundHalfEven n d ≠ j →
      roundHalfEven n d % 2 = 0) := by
  obtain ⟨h1, h2, h3⟩ := roundHalfEven_error n d hd
  generalize roundHalfEven n d = m at *
  rcases Nat.lt_trichotomy j m with h | h | h
  · have := Nat.mul_le_mul_right d (show j + 1 ≤ m from h)
    rw [Nat.add_mul, Nat.one_mul] at this
    omega
  · subst h
    exact ⟨Nat.le_refl _, fun _ h => absurd rfl h⟩
  · have := Nat.mul_le_mul_right d (show m + 1 ≤ j from h)
    rw [Nat.add_mul, Nat.one_mul] at this
    omega

theorem le_roundHalfEven (n d b : Nat) (hd : 0 < d) (h : b * d ≤ n) : b ≤ roundHalfEven n d := by
  have : b ≤ n / d := (Nat.le_div_iff_mul_le hd).2 h
  rcases roundHalfEven_cases n d with e | e <;> omega

theorem roundHalfEven_le (n d b : Nat) (hd : 0 < d) (h : n < b * d) : roundHalfEven n d ≤ b := by
  have : n / d < b := (Nat.div_lt_iff_lt_mul hd).2 h
  rcases roundHalfEven_cases n d with e | e <;> omega

/-- A quotient half a unit below an even number, or nearer, rounds to it or above. -/
theorem le_roundHalfEven_of_half (n d b : Nat) (hd : 0 < d) (hb : b % 2 = 0) (h : 2 * (b * d) ≤ 2 * n + d) :
    b ≤ roundHalfEven n d := by
  obtain ⟨-, h2, h3⟩ := roundHalfEven_error n d hd
  generalize roundHalfEven n d = m at *
  by_contra hc
  have := Nat.mul_le_mul_right d (show m + 1 ≤ b by omega)
  rw [Nat.add_mul, Nat.one_mul] at this
  have half := h3 (.inr (by omega))
  have two := Nat.mul_le_mul_right d (show m + 2 ≤ b by omega)
  rw [Nat.add_mul] at two
  omega

/-- The value, in units, of the exponent and fraction bits that a rounded quotient `m` is given at the scale `2^k`. -/
theorem units_of_scaled (k m : Nat) (hm : m ≤ 2 ^ 53) (hk : k = 0 ∨ 2 ^ 52 ≤ m)
    (h : (k * 2 ^ 52 + m) / 2 ^ 52 < 2047) :
    F64.units ⟨(k * 2 ^ 52 + m) / 2 ^ 52, h⟩ (BitVec.ofNat 52 (k * 2 ^ 52 + m)) = m * 2 ^ k := by
  unfold F64.units
  dsimp only
  rw [BitVec.toNat_ofNat]
  have hdiv : (k * 2 ^ 52 + m) / 2 ^ 52 = k + m / 2 ^ 52 := by omega
  have hmod : (k * 2 ^ 52 + m) % 2 ^ 52 = m % 2 ^ 52 := by omega
  simp only [hdiv, hmod]
  have range : m < 2 ^ 52 ∨ (2 ^ 52 ≤ m ∧ m < 2 ^ 53) ∨ m = 2 ^ 53 := by omega
  rcases range with r | ⟨r, r'⟩ | r
  · have hk0 : k = 0 := by omega
    subst hk0
    rw [if_pos (by omega)]
    omega
  · have hq : m / 2 ^ 52 = 1 := by omega
    rw [hq, if_neg (by omega), Nat.add_sub_cancel]
    congr 1
    omega
  · subst r
    rw [if_neg (by omega)]
    have : k + 2 ^ 53 / 2 ^ 52 - 1 = k + 1 := by omega
    rw [this, Nat.pow_succ]
    omega

/-- A finite number is a whole multiple of `2^k` units, or at most `2^(52+k)` units where `k` is not 0. -/
theorem units_grid (e : Fin 2047) (f : BitVec 52) (k : Nat) :
    (∃ j, F64.units e f = j * 2 ^ k) ∨ (k ≠ 0 ∧ F64.units e f ≤ 2 ^ 52 * 2 ^ k) := by
  have hf := f.isLt
  have hpos := Nat.two_pow_pos k
  rcases Nat.eq_zero_or_pos k with h0 | h0
  · exact .inl ⟨F64.units e f, by rw [h0, Nat.pow_zero, Nat.mul_one]⟩
  unfold F64.units
  split
  · exact .inr ⟨Nat.ne_of_gt h0, Nat.le_trans (Nat.le_of_lt hf) (Nat.le_mul_of_pos_right _ hpos)⟩
  · rcases Nat.lt_or_ge (e.val - 1) k with h | h
    · refine .inr ⟨Nat.ne_of_gt h0, ?_⟩
      have : 2 ^ (e.val - 1) * 2 ≤ 2 ^ k := by
        rw [← Nat.pow_succ]
        exact Nat.pow_le_pow_right (by decide) h
      have := Nat.mul_le_mul (show 2 ^ 52 + f.toNat ≤ 2 ^ 53 by omega) (Nat.le_refl (2 ^ (e.val - 1)))
      omega
    · refine .inl ⟨(2 ^ 52 + f.toNat) * 2 ^ (e.val - 1 - k), ?_⟩
      rw [Nat.mul_assoc, ← Nat.pow_add, Nat.sub_add_cancel h]

/-- The scale and the rounded quotient of `F64.ofQuotient`: the quotient has at most 53 bits at its scale, and 53 bits
unless the scale is 0. -/
theorem dropBits_spec (num den : Nat) (hden : 0 < den) :
    let k := F64.dropBits num den
    let m := roundHalfEven num (den * 2 ^ k)
    m ≤ 2 ^ 53 ∧ (k = 0 ∨ (2 ^ 52 ≤ m ∧ 2 ^ 52 * (den * 2 ^ k) ≤ num)) ∧ num < 2 ^ 53 * (den * 2 ^ k) := by
  intro k m
  have hd : 0 < den * 2 ^ k := Nat.mul_pos hden (Nat.two_pow_pos k)
  have hlog : num / den < 2 ^ ((num / den).log2 + 1) := Nat.lt_log2_self
  have hk : (num / den).log2 + 1 ≤ 53 + k := by show _ ≤ 53 + ((num / den).log2 - 52); omega
  have upper : num < 2 ^ 53 * (den * 2 ^ k) := by
    have h1 : num / den < 2 ^ 53 * 2 ^ k := by
      rw [← Nat.pow_add]
      exact Nat.lt_of_lt_of_le hlog (Nat.pow_le_pow_right (by decide) hk)
    have h2 := (Nat.div_lt_iff_lt_mul hden).1 h1
    rwa [Nat.mul_assoc, Nat.mul_comm (2 ^ k)] at h2
  refine ⟨roundHalfEven_le _ _ _ hd upper, ?_, upper⟩
  rcases Nat.eq_zero_or_pos k with h0 | h0
  · exact .inl h0
  · have hne : num / den ≠ 0 := by
      intro h
      have : k = 0 := by show (num / den).log2 - 52 = 0; rw [h]; decide
      omega
    have hlow : 2 ^ (num / den).log2 ≤ num / den := Nat.log2_self_le hne
    have hk' : 52 + k = (num / den).log2 := by
      have : k = (num / den).log2 - 52 := rfl
      omega
    have lower : 2 ^ 52 * (den * 2 ^ k) ≤ num := by
      rw [← hk', Nat.pow_add] at hlow
      have := (Nat.le_div_iff_mul_le hden).1 hlow
      rwa [Nat.mul_assoc, Nat.mul_comm (2 ^ k)] at this
    exact .inr ⟨le_roundHalfEven _ _ _ hd lower, lower⟩

/-- Of all finite numbers of the same sign the rounded quotient is nearest to `num / den`, and its last bit is 0 where
another is as near. -/
theorem ofQuotient_nearest_units (num den : Nat) (hden : 0 < den) (e : Fin 2047) (f : BitVec 52) :
    let k := F64.dropBits num den
    let m := roundHalfEven num (den * 2 ^ k)
    ((m * 2 ^ k * den : Nat) - num : Int).natAbs ≤ ((F64.units e f * den : Nat) - num : Int).natAbs ∧
    (((m * 2 ^ k * den : Nat) - num : Int).natAbs = ((F64.units e f * den : Nat) - num : Int).natAbs →
      m * 2 ^ k ≠ F64.units e f → m % 2 = 0) := by
  intro k m
  have hd : 0 < den * 2 ^ k := Nat.mul_pos hden (Nat.two_pow_pos k)
  have flat (j : Nat) : j * 2 ^ k * den = j * (den * 2 ^ k) := by rw [Nat.mul_assoc, Nat.mul_comm (2 ^ k)]
  have near (j : Nat) := roundHalfEven_nearest num (den * 2 ^ k) hd j
  have hk : k = 0 ∨ (2 ^ 52 ≤ m ∧ 2 ^ 52 * (den * 2 ^ k) ≤ num) := (dropBits_spec num den hden).2.1
  rw [flat]
  rcases units_grid e f k with ⟨j, hj⟩ | ⟨h0, hu⟩
  · rw [hj, flat]
    exact ⟨(near j).1, fun h hne => (near j).2 h fun hmj => hne (congrArg (· * 2 ^ k) hmj)⟩
  · have low := (hk.resolve_left h0).2
    have hle : F64.units e f * den ≤ 2 ^ 52 * (den * 2 ^ k) := by
      rw [← flat]
      exact Nat.mul_le_mul_right den hu
    obtain ⟨near1, near2⟩ : ((m * (den * 2 ^ k) : Nat) - num : Int).natAbs ≤ ((2 ^ 52 * (den * 2 ^ k) : Nat) - num : Int).natAbs ∧
      (((m * (den * 2 ^ k) : Nat) - num : Int).natAbs = ((2 ^ 52 * (den * 2 ^ k) : Nat) - num : Int).natAbs →
        m ≠ 2 ^ 52 → m % 2 = 0) := near (2 ^ 52)
    have same : F64.units e f * den = 2 ^ 52 * (den * 2 ^ k) → F64.units e f = 2 ^ 52 * 2 ^ k := fun h =>
      Nat.eq_of_mul_eq_mul_right hden (h.trans (flat _).symm)
    generalize F64.units e f * den = u at *
    generalize m * (den * 2 ^ k) = md at *
    generalize 2 ^ 52 * (den * 2 ^ k) = low52 at *
    refine ⟨by omega, fun h hne => near2 (by omega) fun hm => hne ?_⟩
    rw [same (by omega)]
    exact congrArg (· * 2 ^ k) hm

theorem two_pow_le {k a : Nat} (h : k ≤ a) : 2 ^ k ≤ 2 ^ a := Nat.pow_le_pow_right (by decide) h

theorem mul_two_pow_add (den a j : Nat) : den * 2 ^ (a + j) = 2 ^ a * den * 2 ^ j := by
  rw [Nat.pow_add, ← Nat.mul_assoc, Nat.mul_comm den]

/-- What `F64.ofQuotient` answers: the finite number of the rounded quotient below the overflow threshold, an infinity from
it on. -/
theorem ofQuotient_cases (neg : Bool) (num den : Nat) (hden : 0 < den) :
    (num < (2 ^ 54 - 1) * 2 ^ 2044 * den ∧ ∃ e f, F64.ofQuotient neg num den = .finite neg e f ∧
      F64.units e f = roundHalfEven num (den * 2 ^ F64.dropBits num den) * 2 ^ F64.dropBits num den ∧
      f.getLsbD 0 = decide (roundHalfEven num (den * 2 ^ F64.dropBits num den) % 2 = 1)) ∨
    ((2 ^ 54 - 1) * 2 ^ 2044 * den ≤ num ∧ F64.ofQuotient neg num den = .inf neg) := by
  obtain ⟨hm, hk, upper⟩ := dropBits_spec num den hden
  have half := roundHalfEven_error num (den * 2 ^ F64.dropBits num den) (Nat.mul_pos hden (Nat.two_pow_pos _))
  have up := le_roundHalfEven_of_half num (den * 2 ^ F64.dropBits num den) (2 ^ 53) (Nat.mul_pos hden (Nat.two_pow_pos _)) (by decide)
  unfold F64.ofQuotient
  generalize F64.dropBits num den = k at *
  generalize roundHalfEven num (den * 2 ^ k) = m at *
  have scale (j : Nat) (h : k = 2044 + j) : den * 2 ^ k = 2 ^ 2044 * den * 2 ^ j := by
    rw [h]
    exact mul_two_pow_add den 2044 j
  by_cases h : (k * 2 ^ 52 + m) / 2 ^ 52 < 2047
  · refine .inl ⟨?_, _, _, ofMagnitude_finite neg _ h, units_of_scaled k m hm (hk.imp id And.left) h, ?_⟩
    · rcases Nat.lt_or_ge k 2045 with hlt | hge
      · have : 2 ^ k ≤ 2 ^ 2044 := two_pow_le (by omega)
        have := Nat.mul_le_mul_left den this
        rw [Nat.mul_assoc, Nat.mul_comm (2 ^ 2044)]
        generalize den * 2 ^ k = d at *
        generalize den * 2 ^ 2044 = D at *
        omega
      · have hk' : k = 2044 + 1 := by omega
        have hs := scale 1 hk'
        rw [Nat.mul_assoc]
        by_contra hc
        have : 2 ^ 53 ≤ m := up (by rw [hs]; generalize 2 ^ 2044 * den = D at *; omega)
        omega
    · rw [BitVec.getLsbD_ofNat]
      simp only [Nat.testBit_zero]
      simp
      omega
  · refine .inr ⟨?_, ofMagnitude_inf neg _ h⟩
    rw [Nat.mul_assoc]
    rcases Nat.lt_or_ge k 2046 with hlt | hge
    · have hk' : k = 2044 + 1 := by omega
      have hs := scale 1 hk'
      have hm' : m = 2 ^ 53 := by omega
      rw [hs, hm'] at half
      generalize 2 ^ 2044 * den = D at *
      omega
    · obtain ⟨j, hj⟩ := Nat.exists_eq_add_of_le hge
      have hs := scale (2 + j) (by omega)
      have low := (hk.resolve_left (by omega)).2
      rw [hs, Nat.pow_add] at low
      have : 2 ^ 2044 * den * 2 ^ 2 ≤ 2 ^ 2044 * den * (2 ^ 2 * 2 ^ j) := Nat.mul_le_mul_left _ (Nat.le_mul_of_pos_right _ (Nat.two_pow_pos j))
      generalize 2 ^ 2044 * den * (2 ^ 2 * 2 ^ j) = D' at *
      generalize 2 ^ 2044 * den = D at *
      omega
/-- A quotient that is a number of at most 53 bits at some scale, below the overflow threshold, is answered exactly. -/
theorem ofQuotient_exact (neg : Bool) (j a den : Nat) (hden : 0 < den) (hj : j < 2 ^ 53)
    (h : j * 2 ^ a * den < (2 ^ 54 - 1) * 2 ^ 2044 * den) :
    ∃ e f, F64.ofQuotient neg (j * 2 ^ a * den) den = .finite neg e f ∧ F64.units e f = j * 2 ^ a := by
  rcases ofQuotient_cases neg (j * 2 ^ a * den) den hden with ⟨-, e, f, hq, hu, -⟩ | ⟨hge, -⟩
  · refine ⟨e, f, hq, ?_⟩
    rw [hu]
    have quotient : j * 2 ^ a * den / den = j * 2 ^ a := Nat.mul_div_cancel _ hden
    have hk : F64.dropBits (j * 2 ^ a * den) den ≤ a := by
      unfold F64.dropBits
      rw [quotient]
      rcases Nat.eq_zero_or_pos (j * 2 ^ a) with h0 | h0
      · rw [h0]
        exact Nat.zero_le _
      · have hlt : j * 2 ^ a < 2 ^ (53 + a) := by
          rw [Nat.pow_add]
          exact Nat.mul_lt_mul_of_pos_right hj (Nat.two_pow_pos a)
        have := (Nat.log2_lt (Nat.ne_of_gt h0)).2 hlt
        omega
    generalize F64.dropBits (j * 2 ^ a * den) den = k at hk
    obtain ⟨b, rfl⟩ := Nat.exists_eq_add_of_le hk
    have flat : j * 2 ^ (k + b) * den = j * 2 ^ b * (den * 2 ^ k) := by
      rw [Nat.pow_add]
      ring
    rw [flat, roundHalfEven_mul _ _ (Nat.mul_pos hden (Nat.two_pow_pos k)), Nat.mul_assoc, ← Nat.pow_add, Nat.add_comm b k]
  · exact absurd hge (Nat.not_le_of_lt h)

/-- A magnitude with a sign. -/
theorem signedUnits_eq (neg : Bool) (e : Fin 2047) (f : BitVec 52) :
    F64.signedUnits neg e f = if neg then -(F64.units e f : Int) else (F64.units e f : Int) := rfl

/-- Below the overflow threshold the answer is nearest to the signed quotient, ties to even. -/
theorem ofQuotient_nearestEven (neg : Bool) (num den : Nat) (hden : 0 < den) (h : num < (2 ^ 54 - 1) * 2 ^ 2044 * den) :
    NearestEven (F64.ofQuotient neg num den) (if neg then -(num : Int) else num) den := by
  rcases ofQuotient_cases neg num den hden with ⟨-, e, f, hq, hu, hf⟩ | ⟨hge, -⟩
  · rw [hq]
    intro s' e' f'
    have near := ofQuotient_nearest_units num den hden e' f'
    have zero := (ofQuotient_nearest_units num den hden 0 0#52).1
    dsimp only at near zero
    rw [← hu] at near zero
    have even : roundHalfEven num (den * 2 ^ F64.dropBits num den) % 2 = 0 → f.getLsbD 0 = false := fun h => by
      rw [hf, h]
      decide
    have cast (x : Nat) : ((x * den : Nat) : Int) = (x : Int) * den := Int.natCast_mul x den
    have pos : 0 < F64.units e f → 0 < F64.units e f * den := fun h => Nat.mul_pos h hden
    have units_zero : F64.units 0 0#52 = 0 := rfl
    rw [units_zero, Nat.zero_mul] at zero
    have inj (h : F64.units e f = F64.units e' f') : F64.units e f * den = F64.units e' f' * den := by rw [h]
    rw [signedUnits_eq, signedUnits_eq]
    generalize F64.units e f = u at *
    generalize F64.units e' f' = u' at *
    rw [cast] at zero near
    rw [cast] at near
    have posu' : (0 : Int) ≤ u' * den := by positivity
    have posu : (0 : Int) ≤ u * den := by positivity
    have inj' : u = u' → (u : Int) * den = u' * den := fun h => by rw [h]
    have pos' : 0 < u → (0 : Int) < u * den := fun h => by positivity
    cases neg <;> cases s' <;> simp only [Bool.false_eq_true, if_false, if_true, Int.neg_mul] <;>
      generalize (u : Int) * den = ud at * <;> generalize (u' : Int) * den = ud' at * <;>
      refine ⟨by omega, fun heq hne => even (near.2 (by omega) fun huu => ?_)⟩ <;>
      have := inj' huu <;> omega
  · omega

/-- From the overflow threshold on the answer is an infinity. -/
theorem ofQuotient_inf (neg : Bool) (num den : Nat) (hden : 0 < den) (h : (2 ^ 54 - 1) * 2 ^ 2044 * den ≤ num) :
    F64.ofQuotient neg num den = .inf neg := by
  rcases ofQuotient_cases neg num den hden with ⟨hlt, -⟩ | ⟨-, hq⟩
  · omega
  · exact hq

end Sys2Proof
end

