-- ==== Sys2Proof/Laws/Voice.lean ====
section
/-!
SUPPORT. Sys2Proof/Laws/Voice.lean: what the parts of a voice's tick can do, said once: the gate edge, the step logic, a
crossing, the envelope tick, the oscillator's two writes of its voice, and the voices of a tick.
-/

namespace Sys2Proof.Machine

open Sys2Proof

/-- The gate edge: it rises, it falls, or the gate bit is the one last seen. -/
theorem gateEdge_cases (r : VoiceRegs) (v : VoiceState) :
    (gateBit r = true ∧ v.prevGate = false ∧
      gateEdge r v = { v with gateF := true, attackF := true, dsF := true, holdzeroF := false, prevGate := true }) ∨
    (gateBit r = false ∧ v.prevGate = true ∧
      gateEdge r v = { v with gateF := false, attackF := false, dsF := false, prevGate := false }) ∨
    (gateBit r = v.prevGate ∧ gateEdge r v = v) := by
  cases v with
  | mk acc prevAcc env gateF attackF dsF holdzeroF rc expcnt prevSr lfsr prevWf prevGate out =>
    cases hg : gateBit r <;> cases prevGate <;> simp [gateEdge, gateRises, gateFalls, hg]

/-- The step logic: nothing moves, an attack step, or a decrement. -/
theorem stepLogic_cases (r : VoiceRegs) (step : Nat) (v : VoiceState) :
    stepLogic r step v = v ∨
    (v.holdzeroF = false ∧ v.attackF = true ∧
      stepLogic r step v = { v with env := envUp step v.env, attackF := attackAfter (envUp step v.env) }) ∨
    (v.holdzeroF = false ∧ v.attackF = false ∧
      stepLogic r step v = { v with
        env := envDown step v.env, holdzeroF := holdzeroAfter v.env (envDown step v.env) false }) := by
  cases hh : v.holdzeroF with
  | true => exact .inl (by simp [stepLogic, hh])
  | false =>
    cases ha : v.attackF with
    | true => exact .inr (.inl ⟨rfl, rfl, by simp [stepLogic, hh, ha]⟩)
    | false =>
      cases hd : decrements r v with
      | true => exact .inr (.inr ⟨rfl, rfl, by simp [stepLogic, hh, ha, hd]⟩)
      | false => exact .inl (by simp [stepLogic, hh, ha, hd])

/-- A crossing: the counter is reduced, and the step logic runs with the prescaler cleared, or only the prescaler counts. -/
theorem crossed_cases (c : Config) (r : VoiceRegs) (eff step : Nat) (v : VoiceState) :
    crossed c r eff step v = { stepLogic r step { v with rc := v.rc - eff } with expcnt := 0#8 } ∨
    (v.attackF = false ∧ crossed c r eff step v = { v with rc := v.rc - eff, expcnt := v.expcnt + 1#8 }) := by
  cases ha : v.attackF with
  | true => exact .inl (by simp [crossed, ha])
  | false =>
    by_cases hp : expPeriod c v.env ≤ (v.expcnt + 1#8).toNat
    · exact .inl (by simp only [crossed, ha, hp, if_true, Bool.false_eq_true, if_false])
    · exact .inr ⟨rfl, by simp only [crossed, ha, hp, Bool.false_eq_true, if_false]⟩

/-- The envelope tick: the advance alone, or the advance and a crossing. -/
theorem envTick_cases (c : Config) (r : VoiceRegs) (ratio : Nat) (v : VoiceState) :
    envTick c r ratio v = envAdvance c r ratio v ∨
    ∃ eff step, eff ≤ (envAdvance c r ratio v).rc ∧
      envTick c r ratio v = crossed c r eff step (envAdvance c r ratio v) := by
  unfold envTick
  dsimp only
  split
  · rename_i h
    refine .inr ⟨_, _, ?_, rfl⟩
    simp only [crosses, Bool.and_eq_true, decide_eq_true_eq] at h
    exact h.1.2
  · exact .inl rfl

theorem rcAdvance_lt (c : Config) (ratio rc : Nat) : rcAdvance c ratio rc < rcModulus c :=
  Nat.mod_lt _ (Nat.mul_pos (by decide) (Nat.two_pow_pos _))

/-- The oscillator tick of a voice: its own voice is advanced and then driven; no other changes. -/
theorem oscTick_eq (c : Config) (r : VoiceRegs) (ratio : Nat) (id : VoiceId) (vs : Voices) :
    ∃ y, oscTick c r ratio id vs =
      vs.set (oscDrive r y (oscAdvance c r ratio (syncRise (vs.get (syncSource c id))) (vs.get id))) id := by
  simp only [oscTick, set_set, get_set_self]
  exact ⟨_, rfl⟩

/-- The voice that ticks, with its ring source as it stands after the tick: the wave changes no accumulator. -/
theorem oscTick_own (c : Config) (r : VoiceRegs) (ratio : Nat) (id : VoiceId) (vs : Voices) :
    let advanced := oscAdvance c r ratio (syncRise (vs.get (syncSource c id))) (vs.get id)
    (oscTick c r ratio id vs).get id =
      oscDrive r (oscWave c r ratio (((oscTick c r ratio id vs).get (syncSource c id)).acc.getLsbD 23) advanced) advanced := by
  intro advanced
  have source : ((oscTick c r ratio id vs).get (syncSource c id)).acc = ((vs.set advanced id).get (syncSource c id)).acc := by
    obtain ⟨y, hy⟩ := oscTick_eq c r ratio id vs
    rw [hy]
    change ((vs.set (oscDrive r y advanced) id).get _).acc = _
    clear_value advanced
    by_cases h : syncSource c id = id
    · rw [h, get_set_self, get_set_self]
      rfl
    · rw [get_set_ne _ _ h, get_set_ne _ _ h]
  rw [source]
  simp only [oscTick, get_set_self]
  rfl

/-- A voice in a tick of voice `id`: the one that ticks, or one left as it was. -/
theorem voiceTick_get (c : Config) (p : Params) (ratio : Nat) (id other : VoiceId) (vs : Voices) :
    (other ≠ id ∧ (voiceTick c p ratio id vs).get other = vs.get other) ∨
    (other = id ∧ ∃ y rise, (voiceTick c p ratio id vs).get other =
      oscDrive (p.regs id) y (oscAdvance c (p.regs id) ratio rise (envTick c (p.regs id) ratio (vs.get id)))) := by
  obtain ⟨y, hy⟩ := oscTick_eq c (p.regs id) ratio id (vs.set (envTick c (p.regs id) ratio (vs.get id)) id)
  by_cases h : other = id
  · subst h
    exact .inr ⟨rfl, y, _, by rw [voiceTick, hy, get_set_self, get_set_self]⟩
  · exact .inl ⟨h, by rw [voiceTick, hy, get_set_ne _ _ h, get_set_ne _ _ h]⟩

/-- Every voice ticks exactly once in a TICK: its envelope, then its oscillator. -/
theorem voicesTick_get (c : Config) (p : Params) (ratio : Nat) (id : VoiceId) (vs : Voices) :
    ∃ y rise, (voicesTick c p ratio vs).get id =
      oscDrive (p.regs id) y (oscAdvance c (p.regs id) ratio rise (envTick c (p.regs id) ratio (vs.get id))) := by
  have pass {a b : VoiceId} (h : a ≠ b) (ws : Voices) : (voiceTick c p ratio b ws).get a = ws.get a := by
    rcases voiceTick_get c p ratio b a ws with ⟨-, e⟩ | ⟨e, -⟩
    · exact e
    · exact absurd e h
  have self (b : VoiceId) (ws : Voices) : ∃ y rise, (voiceTick c p ratio b ws).get b =
      oscDrive (p.regs b) y (oscAdvance c (p.regs b) ratio rise (envTick c (p.regs b) ratio (ws.get b))) := by
    rcases voiceTick_get c p ratio b b ws with ⟨h, -⟩ | ⟨-, e⟩
    · exact absurd rfl h
    · exact e
  unfold voicesTick
  cases id
  · rw [pass (by decide), pass (by decide)]
    exact self .v1 vs
  · rw [pass (by decide), ← pass (a := .v2) (b := .v1) (by decide) vs]
    exact self .v2 _
  · rw [← pass (a := .v3) (b := .v1) (by decide) vs,
      ← pass (a := .v3) (b := .v2) (by decide) (voiceTick c p ratio .v1 vs)]
    exact self .v3 _

end Sys2Proof.Machine
end

