-- ==== Sys2Proof/Tests/Slice0.lean ====
section
/-!
SUPPORT. Sys2Proof/Tests/Slice0.lean: the smoke tests of WellFormed, one written-out word per constructor, a few vectors
of spec/95_test_vectors.md (each named in its docstring), and for every statement with hypotheses a witness that meets
them. Expected values are the spec's, never the model's own answers.
-/

namespace Sys2Proof.Tests

open Sys2Proof Sys2Proof.Machine

/-! ### Helpers: small states -/

/-- TC1 after reset, with voice 1's registers given. -/
def withRegs (fq : BitVec 16) (pw : BitVec 12) (wg ad sr : BitVec 8) : State :=
  { State.reset with params := { Params.zero with r1 := ⟨fq, pw, wg, ad, sr⟩ } }

/-- The default configuration of TC1. -/
def tc1 : Config := defaultConfig 1000000 1

/-- One chip cycle per tick, in the ratio's fixed point (TC1). -/
def cycle : Nat := 65536

def regs (fq : BitVec 16) (pw : BitVec 12) (wg ad sr : BitVec 8) : VoiceRegs := ⟨fq, pw, wg, ad, sr⟩

/-- A voice with an accumulator, the rest as reset leaves it. -/
def voiceAt (acc : BitVec 24) : VoiceState := { resetVoice tc1 with acc := acc }

/-- A voice with a level and envelope flags. -/
def voiceEnv (env : BitVec 8) (gate attack ds hold : Bool) : VoiceState :=
  { resetVoice tc1 with env := env, gateF := gate, attackF := attack, dsF := ds, holdzeroF := hold, prevGate := gate }

/-- Three voices, the second and third as reset leaves them. -/
def onlyFirst (v : VoiceState) : Voices := ⟨v, resetVoice tc1, resetVoice tc1⟩

/-- A property of the state that an outcome answers; false of a stop. -/
def answers (o : Host.Outcome State Fault Refusal) (p : State → Bool) : Bool :=
  match o with
  | .next t => p t
  | .fault _ => false
  | .refused _ => false

theorem exists_of_answers {o : Host.Outcome State Fault Refusal} {p : State → Bool} (h : answers o p = true) :
    ∃ t, o = .next t ∧ p t = true := by
  cases o with
  | next t => exact ⟨t, rfl, h⟩
  | fault r => cases h
  | refused r => cases h

/-! ### WellFormed: the one check, and a term it refuses -/

theorem test_wf_refuses_nop_under_listed_key : (Instr.nop 0x80#8 0#24).wf = false := by decide
theorem test_wf_refuses_nop_under_every_listed_key : ∀ k ∈ listedKeys, (Instr.nop k 5#24).wf = false := by decide
theorem test_wf_accepts_nop : (Instr.nop 0x15#8 1#24).wf = true := by decide

/-! ### Decoding: a word for each constructor, KEY written from R83 (30_encoding.md), VALUE below it -/

theorem test_decode_wrFq : decode 0x10011000#32 = .wrFq1 0x11000#24 ∧ decode 0x20001000#32 = .wrFq2 0x1000#24 ∧
    decode 0x3000FFFF#32 = .wrFq3 0xFFFF#24 := by decide
theorem test_decode_wrPw : decode 0x11000800#32 = .wrPw1 0x800#24 ∧ decode 0x21001800#32 = .wrPw2 0x1800#24 ∧
    decode 0x31000FFF#32 = .wrPw3 0xFFF#24 := by decide
theorem test_decode_wrWg : decode 0x12000021#32 = .wrWg1 0x21#24 ∧ decode 0x22000022#32 = .wrWg2 0x22#24 ∧
    decode 0x32000014#32 = .wrWg3 0x14#24 := by decide
theorem test_decode_wrAd : decode 0x13000000#32 = .wrAd1 0#24 ∧ decode 0x2300000A#32 = .wrAd2 0xA#24 ∧
    decode 0x330000F0#32 = .wrAd3 0xF0#24 := by decide
theorem test_decode_wrSr : decode 0x140000F0#32 = .wrSr1 0xF0#24 ∧ decode 0x240000A5#32 = .wrSr2 0xA5#24 ∧
    decode 0x34000001#32 = .wrSr3 1#24 := by decide
theorem test_decode_global : decode 0x400000FF#32 = .wrCutl 0xFF#24 ∧ decode 0x41000080#32 = .wrCuth 0x80#24 ∧
    decode 0x42000107#32 = .wrRes 0x107#24 ∧ decode 0x4300001F#32 = .wrTypevol 0x1F#24 := by decide
theorem test_decode_setSr_tick : decode 0x5000AC44#32 = .setSr 44100#24 ∧ decode 0x80000000#32 = .tick 0#24 := by decide
/-- T-WR-9, T-WR-10, T-WR-12. -/
theorem test_decode_nop : decode 0x00000000#32 = .nop 0#8 0#24 ∧ decode 0x15000001#32 = .nop 0x15#8 1#24 ∧
    decode 0x0F00FFFF#32 = .nop 0x0F#8 0xFFFF#24 ∧ decode 0x44000001#32 = .nop 0x44#8 1#24 ∧
    decode 0x81000000#32 = .nop 0x81#8 0#24 ∧ decode 0xFFFFFFFF#32 = .nop 0xFF#8 0xFFFFFF#24 := by decide
theorem test_encode_words : encode (.wrPw2 0x1800#24) = 0x21001800#32 ∧ encode (.setSr 44100#24) = 0x5000AC44#32 ∧
    encode (.tick 0#24) = 0x80000000#32 ∧ encode (.nop 0xFF#8 0x123456#24) = 0xFF123456#32 := by decide
theorem test_decodeTableWord : decodeTableWord 32 0x240000A5 = some (.wrSr2 0xA5#24) ∧
    decodeTableWord 40 0x240000A5 = none := by decide

/-! ### Register writes (95 section 2.1) -/

/-- T-WR-1 and T-WR-2. -/
theorem test_wrFq : answers (exec (decode 0x10011000#32) State.reset) (fun t => decide (t.params.r1.fq = 0x1000#16)) = true ∧
    answers (exec (decode 0x3000FFFF#32) State.reset) (fun t => decide (t.params.r3.fq = 0xFFFF#16)) = true := by
  decide
/-- T-WR-3. -/
theorem test_wrPw : answers (exec (decode 0x21001800#32) State.reset)
    (fun t => decide (t.params.r2.pw = 0x800#12)) = true := by decide
/-- T-WR-4. -/
theorem test_wrWg : answers (exec (decode 0x12000321#32) State.reset)
    (fun t => decide (t.params.r1.wg = 0x21#8)) = true := by decide
/-- T-WR-5. -/
theorem test_wrAd : answers (exec (decode 0x330000F0#32) State.reset)
    (fun t => decide (t.params.r3.ad = 0xF0#8)) = true := by decide
/-- T-WR-6. -/
theorem test_wrSr : answers (exec (decode 0x240000A5#32) State.reset)
    (fun t => decide (sustainNibble t.params.r2 = 10#4) && decide (releaseNibble t.params.r2 = 5#4)) = true := by
  decide
/-- T-WR-7 and T-WR-8. -/
theorem test_wrGlobal : answers (exec (decode 0x400000FF#32) State.reset)
      (fun t => decide (t.params.cutL = 0xFF#8) && decide (cutLow t.params = 7#3)) = true ∧
    answers (exec (decode 0x42000107#32) State.reset) (fun t => decide (t.params.res = 0x07#8)) = true := by
  decide

/-! ### SET_SR (T-SR-1 to T-SR-4) -/

theorem test_setSr_ratio : clockRatio (defaultConfig 985248 1) 44100#24 = 1464154 ∧
    clockRatio (defaultConfig 985248 1) 48000#24 = 1345191 := by decide
theorem test_setSr_cutoff_ratio :
    cutoffRatio tc1 44100#24 =
      ((F64.lit 11125283446712018 1000000000000000000).neg, (F64.lit 69533021541950115 10000000000000000000).neg) := by
  decide +kernel
theorem test_setSr_zero : answers (exec (decode 0x50000000#32) State.reset)
    (fun t => decide (t = { State.reset with engine := { State.reset.engine with
      fault := some ⟨.sampleRateNotPositive, .command 0x50000000#32⟩ } })) = true := by decide +kernel

/-! ### TICK and the frame counter (95 section 2.5) -/

/-- T-TICK-1, and R230's example: `y = +0.0`; S.frame counts. -/
theorem test_tick_from_reset : answers (exec (.tick 0#24) State.reset)
    (fun t => decide (t.voices.v1.rc = 65536) && decide (t.voices.v3.acc = 0#24) && decide (t.engine.frame = 1) &&
      decide (t.outputs = [⟨.zero, false⟩])) = true := by decide +kernel
/-- T-FAULT-1. -/
theorem test_tick_before_reset : answers (exec (decode 0x80000000#32) (State.powerOn tc1))
    (fun t => decide (t.engine.fault = some ⟨.notInitialized, .command 0x80000000#32⟩) && t.outputs.isEmpty) = true := by
  decide
/-- T-FRAME-1 (period 2) and T-FRAME-2 (period 1). -/
theorem test_frame : frameTick (resetEngine tc1 100#24) = { resetEngine tc1 100#24 with frame := 1 } ∧
    (frameTick { resetEngine tc1 100#24 with frame := 1 }).frame = 0 ∧ frameWraps (resetEngine tc1 49#24) = true := by
  decide +kernel
/-- P4's second program: the run has ended, the TICK is not applied. -/
theorem test_run_ends_at_fault :
    step { State.reset with engine := { State.reset.engine with fault := some ⟨.sampleRateNotPositive, .reset⟩ }
                            stream := [0x80000000#32] } = .fault (.configError .sampleRateNotPositive) := rfl

/-! ### Envelope (95 section 2.2) -/

/-- The last tick of T-ENV-1: the ninth, from a counter at 8 cycles. -/
theorem test_env_attack :
    envTick tc1 (regs 0 0 0x01 0x00 0xF0) cycle { voiceEnv 0 true true true false with rc := 8 * cycle, prevSr := 0xF0#8 } =
      { voiceEnv 1 true true true false with rc := 0, prevSr := 0xF0#8 } := by decide
/-- The last step of T-ENV-2: 255 ends the attack. -/
theorem test_env_attack_ends :
    envTick tc1 (regs 0 0 0x01 0x00 0xF0) cycle { voiceEnv 254 true true true false with rc := 8 * cycle, prevSr := 0xF0#8 } =
      { voiceEnv 255 true false true false with rc := 0, prevSr := 0xF0#8 } := by decide
/-- T-ENV-7: the rising tick's check is skipped; T-ENV-6: without the skip the same tick steps. -/
theorem test_env_skip :
    (envTick tc1 (regs 0 0 0x01 0x00 0x01) cycle { voiceEnv 0 false false false false with rc := 8 * cycle }).rc = 9 * cycle ∧
    (envTick tc1 (regs 0 0 0x01 0x00 0x00) cycle { voiceEnv 0 false false false false with rc := 8 * cycle }).env = 1#8 := by
  decide
/-- T-ENV-8: the first tick at 44100 Hz steps by 3. -/
theorem test_env_accelerated :
    envTick tc1 (regs 0 0 0x01 0x00 0xF0) 1464154 (voiceEnv 0 false false false false) =
      { voiceEnv 3 true true true false with prevSr := 0xF0#8 } := by decide
/-- T-ENV-10: the thirtieth crossing at level 1 fires and sets hold-zero; T-ENV-11: a decrement at 0 does not. -/
theorem test_env_hold_zero :
    envTick tc1 (regs 0 0 0 0 0) cycle { voiceEnv 1 false false false false with rc := 8 * cycle, expcnt := 29#8 } =
      { voiceEnv 0 false false false true with rc := 0, expcnt := 0#8 } ∧
    (envTick tc1 (regs 0 0 0 0 0) cycle { voiceEnv 0 false false false false with rc := 8 * cycle }).holdzeroF = false := by
  decide
/-- T-ENV-12: a falling edge clears the three flags. -/
theorem test_env_falling :
    envPhase (envTick tc1 (regs 0 0 0 0xFF 0x0F) cycle (voiceEnv 200 true true true false)) = .offRelease := by
  decide

/-! ### Oscillator (95 section 2.3) -/

/-- What the tests read of voice 1 after an OSC_TICK: the accumulator, the output, the noise register. -/
def oscResult (c : Config) (r : VoiceRegs) (ratio : Nat) (vs : Voices) : BitVec 24 × BitVec 16 × BitVec 23 :=
  ((oscTick c r ratio .v1 vs).v1.acc, (oscTick c r ratio .v1 vs).v1.out, (oscTick c r ratio .v1 vs).v1.lfsr)

/-- T-OSC-2 and T-OSC-14. -/
theorem test_osc_saw :
    oscResult tc1 (regs 0x1000 0 0x20 0 0) cycle (onlyFirst (voiceAt 0xFFF000)) = (0x000000#24, 0x0000#16, 0x7FFFF0#23) ∧
    oscResult tc1 (regs 0x1000 0 0x28 0 0) cycle (onlyFirst (voiceAt 0x123456)) = (0x000000#24, 0x0000#16, 0x7FFFF0#23) := by
  decide
/-- T-OSC-3 to T-OSC-5. -/
theorem test_osc_triangle :
    oscResult tc1 (regs 0x0080 0 0x10 0 0) cycle (onlyFirst (voiceAt 0x3FFF80)) = (0x400000#24, 0x8000#16, 0x7FFFF0#23) ∧
    oscResult tc1 (regs 0x0001 0 0x10 0 0) cycle (onlyFirst (voiceAt 0x8FFFFF)) = (0x900000#24, 0xDFFF#16, 0x7FFFF0#23) ∧
    oscResult tc1 (regs 0x0080 0 0x10 0 0) cycle (onlyFirst (voiceAt 0x7FFF7F)) = (0x7FFFFF#24, 0xFFFF#16, 0x7FFFF8#23) := by
  decide
/-- T-OSC-6, T-OSC-7 and T-OSC-16. -/
theorem test_osc_pulse :
    oscResult tc1 (regs 0x0FFF 0x800 0x40 0 0) cycle (onlyFirst (voiceAt 0x7FF000)) = (0x7FFFFF#24, 0x0000#16, 0x7FFFF8#23) ∧
    oscResult tc1 (regs 0x1000 0x800 0x40 0 0) cycle (onlyFirst (voiceAt 0x7FF000)) = (0x800000#24, 0xFFFF#16, 0x7FFFF0#23) ∧
    oscResult tc1 (regs 0 0x800 0x60 0 0) cycle (onlyFirst (voiceAt 0x900000)) = (0x900000#24, 0x9000#16, 0x7FFFF8#23) := by
  decide
/-- T-OSC-12 and T-OSC-13. -/
theorem test_osc_noise :
    oscResult tc1 (regs 0x0001 0 0x80 0 0) cycle (onlyFirst (voiceAt 0x0FFFFF)) = (0x100000#24, 0xFC00#16, 0x7FFFF0#23) ∧
    oscResult tc1 (regs 0x0001 0 0x90 0 0) cycle (onlyFirst (voiceAt 0x0FFFFF)) = (0x100000#24, 0x0000#16, 0x7FFFF0#23) := by
  decide
/-- T-OSC-19, tick 1 (above the noise limit), and T-OSC-20 (not above it). -/
theorem test_osc_noise_limit :
    oscResult tc1 (regs 0xFFFF 0 0x80 0 0) 1114112 (onlyFirst (voiceAt 0)) = (0x10FFEF#24, 0xFC00#16, 0x7FFFF0#23) ∧
    oscResult tc1 (regs 0xFFFF 0 0x80 0 0) 1048576 (onlyFirst (voiceAt 0)) = (0x0FFFF0#24, 0xFC00#16, 0x7FFFF8#23) := by
  decide
/-- T-LFSR-1: the first and the eighth value, and the output at the latter. -/
theorem test_lfsr : lfsrClock 0x7FFFF8#23 = 0x7FFFF0#23 ∧ lfsrClock 0x7FFC00#23 = 0x7FF800#23 ∧
    noise16 0x7FF800#23 = 0xF000#16 := by decide
/-- T-RING-1 and T-RING-2. -/
theorem test_ring : tri16 (ringed (regs 0 0 0x14 0 0) true 0x081000#24) = 0xEFDF#16 ∧
    tri16 (ringed (regs 0 0 0x14 0 0) true 0x900000#24) = 0x2000#16 := by decide
/-- P2, tick 129: voice 1's bit 23 rises and resets voice 2, which has SYNC set. -/
theorem test_sync :
    (oscTick tc1 (regs 0x1000 0 0x22 0 0) cycle .v2
      ⟨{ voiceAt 0x80FF7F with prevAcc := 0x7FFF80#24 }, voiceAt 0x080000, voiceAt 0x080000⟩).v2.acc = 0#24 := by
  decide

/-! ### Mixer and filter (95 section 2.4) -/

/-- Three voices with the same waveform output and the given levels. -/
def mixVoicesAt (out : BitVec 16) (e1 e2 e3 : BitVec 8) : Voices :=
  ⟨{ resetVoice tc1 with out := out, env := e1 }, { resetVoice tc1 with out := out, env := e2 },
   { resetVoice tc1 with out := out, env := e3 }⟩

/-- The filter coefficients of T-FLT-1: constants 0.5 and 1.0 for the two functions. -/
def flatFilter : Config :=
  { tc1 with cutoffCoef := [(cutoffArgs tc1 Params.zero State.reset.engine, F64.lit 1 2)]
             resonanceCoef := [(0#4, F64.ofInt 1)] }

/-- T-MIX-1 (R213) and T-MIX-4, of the sum alone: no filter mode, so no filter coefficient reaches `y`. -/
theorem test_mix :
    normalise tc1 { Params.zero with typeVol := 0x0F#8 } (mixVoices { Params.zero with typeVol := 0x0F#8 }
      (mixVoicesAt 0xFFFF 255 0 0)).bus = F64.lit 3320211172103882 10000000000000000 ∧
    normalise tc1 { Params.zero with typeVol := 0x8F#8 } (mixVoices { Params.zero with typeVol := 0x8F#8 }
      (mixVoicesAt 0 255 255 255)).bus = (F64.lit 6640625 10000000).neg := by decide +kernel
/-- T-FLT-1, tick 1: the filter state and the low-pass output. -/
theorem test_filter_lowpass :
    nextFilter flatFilter { Params.zero with res := 0x01#8, typeVol := 0x1F#8 } State.reset.engine
      (mixVoicesAt 0xFFFF 128 0 0) .zero = ⟨(F64.lit 4095875 1000).neg, (F64.lit 819175 100).neg⟩ ∧
    mixSample flatFilter { Params.zero with res := 0x01#8, typeVol := 0x1F#8 } State.reset.engine
      (mixVoicesAt 0xFFFF 128 0 0) .zero = (F64.lit 4166539510091146 100000000000000000).neg := by decide +kernel
/-- T-FLT-2a and T-FLT-2b, tick 1: high-pass 0.0, band-pass 0.08333079020182292. -/
theorem test_filter_modes :
    mixSample flatFilter { Params.zero with res := 0x01#8, typeVol := 0x4F#8 } State.reset.engine
      (mixVoicesAt 0xFFFF 128 0 0) .zero = .zero ∧
    mixSample flatFilter { Params.zero with res := 0x01#8, typeVol := 0x2F#8 } State.reset.engine
      (mixVoicesAt 0xFFFF 128 0 0) .zero = F64.lit 8333079020182292 100000000000000000 := by decide +kernel
/-- IEEE 754: 1 + 2^-53 is a tie and rounds to the even 1; 1/3 in binary64 is 0x3FD5555555555555. -/
theorem test_binary64 :
    (F64.ofInt 1).add ((F64.ofInt 1).div (F64.ofInt (2 ^ 53))) = F64.ofInt 1 ∧
    ((F64.ofInt 1).div (F64.ofInt 3)).toBits? = some 0x3FD5555555555555#64 := by decide +kernel

/-! ### The assembler (R88 to R90) -/

/-- A comment alone (95 P4) is a line of no command and is not refused; a word that R88 does not list is refused. -/
theorem test_assembler_blank :
    (readLine ("; power-on, no reset".toList)).bind assemble = some [] ∧ (readLine []).bind assemble = some [] ∧
    readLine ("wait".toList) = none := by decide

/-- R89: R83's order with `sampleRate` last, null and unknown keys to nothing; a literal without an encoding is refused. -/
theorem test_update_line :
    let line := fun text : List Char => "update ".toList ++ openBrace :: text ++ [closeBrace]
    ((readLine (line "sampleRate: 44100, cutH:0xFF, fq2: 7, pw1: null, fq1: 0x1000, volume: 3".toList)).bind assemble).map
      (List.map encode) = some [0x10001000#32, 0x20000007#32, 0x410000FF#32, 0x5000AC44#32] ∧
    (readLine (line "fq1: 0x1000000".toList)).bind assemble = none ∧ (readLine (line [])).bind assemble = some [] := by
  decide

/-- R67: a key written twice is refused. R88: a voice number is read as a literal is (log entry 10). -/
theorem test_assembler_spelling :
    updateOf [(['f', 'q', '1'], some 1), (['f', 'q', '1'], none)] = none ∧
    readLine ("wr.sr 0x2, 15".toList) = some (.wrVoice .sr 2 15) ∧ readLine ("WR.SR 2, 15".toList) = none := by decide

theorem test_assembler :
    readLine ("wr.fq 1, 0x11000".toList) = some (.wrVoice .fq 1 0x11000) ∧
    (assemble (.wrVoice .fq 1 0x11000)).map (List.map encode) = some [0x10011000#32] ∧
    assemble (.wrVoice .fq 4 0) = none ∧ assemble (.setSr 0x1000000) = none ∧
    (assemble (.wrFc 0x7FF)).map (List.map encode) = some [0x40000007#32, 0x410000FF#32] ∧
    assemble (.ticks 0) = some [] := by decide

/-! ### Witnesses: concrete states and operands that meet each statement's hypotheses, clause by clause -/

/-- TC1 after reset with one command pending. -/
def pending (w : Nat) : State := State.reset.withFetchWord 32 w

theorem resetVoice_inv : VoiceInv tc1 (resetVoice tc1) := by
  refine ⟨by decide, by decide, rfl, rfl, ?_, ?_, fun _ => rfl⟩
  · intro h; cases h
  · intro h; cases h

/-- An initialised state of TC1 with a command pending meets the invariant (SampleRateRoundTrip, StepKeepsTheInvariant). -/
theorem pending_inv (w : Nat) : Inv (pending w) := by
  have engine : (pending w).engine = resetEngine tc1 1000000#24 := rfl
  have cfg : (pending w).cfg = tc1 := rfl
  refine ⟨?_, ?_, fun _ => ?_, fun _ => ?_, fun _ => ?_⟩
  · rw [cfg]
    decide
  · intro id
    cases id
    · exact resetVoice_inv
    · exact resetVoice_inv
    · exact resetVoice_inv
  · rw [engine]
    decide
  · rw [engine, cfg]
    decide
  · rw [engine, cfg]
    decide +kernel

theorem witness_DecodeInvertsEncode : (Instr.nop 0xFF#8 0x123456#24).wf = true ∧ (Instr.wrFq1 0xFFFFFF#24).wf = true := by
  decide
theorem witness_UnlistedKeysAreNop :
    (0x0F#8).toNat ≤ 0x0F ∧ 0x15 ≤ (0x15#8).toNat ∧ (0x1F#8).toNat ≤ 0x1F ∧ 0x25 ≤ (0x25#8).toNat ∧
    (0x2F#8).toNat ≤ 0x2F ∧ 0x35 ≤ (0x35#8).toNat ∧ (0x3F#8).toNat ≤ 0x3F ∧ 0x44 ≤ (0x44#8).toNat ∧
    (0x4F#8).toNat ≤ 0x4F ∧ 0x51 ≤ (0x51#8).toNat ∧ (0x7F#8).toNat ≤ 0x7F ∧ 0x81 ≤ (0x81#8).toNat := by decide
theorem witness_ListedKeysSelectTheirCommands :
    listedKeys.contains 0x00#8 = false ∧ listedKeys.contains 0x15#8 = false ∧ listedKeys.contains 0xFF#8 = false := by decide
theorem witness_FrequencyWriteStoresLow16Bits :
    (regs 0 0 0xF5 0 0).fq = 0#16 ∧ (regs 0 0 0xF5 0 0).wg.getLsbD 3 = false ∧ (regs 0 0 0xF5 0 0).wg.getLsbD 1 = false := by
  decide
theorem witness_KeyAloneSelectsTheCommand :
    (0x50000000#32).toNat / 2 ^ 24 = (0x50FFFFFF#32).toNat / 2 ^ 24 := by decide
theorem witness_StepAppliesTheDecodedCommand :
    (pending 0x43000010).engine.fault = none ∧ (pending 0x43000010).stream = 0x43000010#32 :: [] := by
  exact ⟨rfl, by decide⟩
/-- Both clauses: a recorded fault; no fault and nothing pending. -/
theorem witness_FaultOrEmptyStreamAppliesNothing :
    (raiseConfigError .notInitialized 0x80000000#32 State.reset).engine.fault = some ⟨.notInitialized, .command 0x80000000#32⟩ ∧
    State.reset.engine.fault = none ∧ State.reset.stream = [] := ⟨rfl, rfl, rfl⟩
theorem witness_OnlyTickAdvancesTheSound : ∀ n, Instr.setSr 0#24 ≠ .tick n := fun _ => Instr.noConfusion
theorem witness_RepeatedCommandIsIdempotent :
    (∀ n, Instr.wrWg1 0x21#24 ≠ .tick n) ∧
    exec (.wrWg1 0x21#24) State.reset = .next (writeWg .v1 0x21#24 State.reset) := ⟨fun _ => Instr.noConfusion, rfl⟩

/-- An update of four known keys, a sample rate among them, a null key and an unknown one. -/
def someUpdate : Update :=
  ⟨[(['s', 'a', 'm', 'p', 'l', 'e', 'R', 'a', 't', 'e'], some 44100#24), (['f', 'q', '1'], some 0x1000#24),
    (['w', 'g', '1'], some 0x21#24), (['p', 'w', '1'], none), (['x'], some 1#24),
    (['t', 'y', 'p', 'e', 'V', 'o', 'l'], some 0x0F#24)]⟩

theorem witness_UpdateOrderHasNoEffect :
    someUpdate.value .sampleRate ≠ some 0#24 ∧ State.reset.engine.fault = none ∧
    [0x5000AC44#32, 0x12000021#32, 0x4300000F#32, 0x10001000#32].Perm (someUpdate.expand.map encode) := by
  refine ⟨by decide, rfl, ?_⟩
  decide
theorem witness_SetSrRecomputesTheConstants : (44100#24 : Operand) ≠ 0#24 ∧ State.reset.cfg.cutoffRatio = [] :=
  ⟨by decide, rfl⟩
theorem witness_SampleRateRoundTrip :
    Inv (pending 0) ∧ (pending 0).engine.init = true ∧ (48000#24 : Operand) ≠ 0#24 := ⟨pending_inv 0, rfl, by decide⟩
theorem witness_TickBeforeResetRecordsTheError : (State.powerOn tc1).engine.init = false := rfl
/-- The hypothesis of TickRunsTheVoicesInOrder, TickEmitsOneSampleOnEveryChannel, FrameCounterFeedsNoSample and
SampleSumsModesAndNormalises. -/
theorem witness_initialised : State.reset.engine.init = true := rfl

/-- TC1 with a frame counter. -/
def atFrame (n : Nat) : State := { State.reset with engine := { State.reset.engine with frame := n } }

/-- Both clauses at the boundary: period 20000, so 19999 wraps and 19998 does not. -/
theorem witness_FrameCounterWrapsAtItsPeriod :
    (atFrame 19999).engine.init = true ∧
    max 1 ((atFrame 19999).engine.sampleRate.toNat / 50) ≤ (atFrame 19999).engine.frame + 1 ∧
    (atFrame 19998).engine.frame + 1 < max 1 ((atFrame 19998).engine.sampleRate.toNat / 50) := by decide
theorem witness_IgnoredRegisterBitsFeedNoSample :
    State.reset.engine.init = true ∧ (0xF8#8).toNat % 8 = State.reset.params.cutL.toNat % 8 ∧
    ∀ k, k ≠ 3 → (0x08#8).getLsbD k = State.reset.params.res.getLsbD k := by
  have low : ∀ k, k < 8 → k ≠ 3 → (0x08#8).getLsbD k = (0#8).getLsbD k := by decide
  refine ⟨rfl, rfl, fun k hk => ?_⟩
  by_cases h : k < 8
  · exact low k h hk
  · rw [BitVec.getLsbD_of_ge _ _ (by omega), BitVec.getLsbD_of_ge _ _ (by omega)]

/-! #### Envelope -/

/-- A rising edge, a falling edge, no edge. -/
theorem witness_GateEdgeWritesTheFlags :
    ((regs 0 0 0x01 0 0).wg.getLsbD 0 = true ∧ (voiceEnv 0 false false false false).prevGate = false) ∧
    ((regs 0 0 0xFE 0 0).wg.getLsbD 0 = false ∧ (voiceEnv 0 true true true false).prevGate = true) ∧
    (regs 0 0 0x01 0 0).wg.getLsbD 0 = (voiceEnv 0 true true true false).prevGate := by decide

/-- Voice 1 at level 0 with hold-zero, its gate bit just written 1. -/
def aboutToRise : State :=
  { withRegs 0 0 0x01 0 0xF0 with voices := onlyFirst (voiceEnv 0 false false false true) }

/-- All four clauses at once: the three flags are set and hold-zero is cleared. -/
theorem witness_EnvelopeFlagsFollowGateEdges :
    answers (exec (.tick 0#24) aboutToRise) (fun t =>
      t.voices.v1.gateF && t.voices.v1.attackF && t.voices.v1.dsF && !t.voices.v1.holdzeroF) = true ∧
    aboutToRise.voices.v1.gateF = false ∧ aboutToRise.voices.v1.attackF = false ∧
    aboutToRise.voices.v1.dsF = false ∧ aboutToRise.voices.v1.holdzeroF = true := by decide
theorem witness_SkippedRateCheck :
    skipsCheck (regs 0 0 0x01 0 0x01) (voiceEnv 0 false false false false) = true ∧
    (regs 0 0 0x01 0 0x01).wg.getLsbD 0 = true ∧ (voiceEnv 0 false false false false).prevGate = false ∧
    (voiceEnv 0 false false false false).prevSr.toNat % 16 < (regs 0 0 0x01 0 0x01).sr.toNat % 16 := by decide
theorem witness_RateIndexFollowsTheFlags :
    (voiceEnv 0 true true true false).attackF = true ∧
    ((voiceEnv 255 true false true false).attackF = false ∧ (voiceEnv 255 true false true false).dsF = true) ∧
    (voiceEnv 9 false false false false).attackF = false ∧ (voiceEnv 9 false false false false).dsF = false := by decide

/-- The first and the last level of each run of the prescaler table. -/
theorem witness_PeriodTables :
    0x01 ≤ (0x06#8).toNat ∧ (0x06#8).toNat ≤ 0x06 ∧ 0x07 ≤ (0x07#8).toNat ∧ (0x0E#8).toNat ≤ 0x0E ∧
    0x0F ≤ (0x0F#8).toNat ∧ (0x1A#8).toNat ≤ 0x1A ∧ 0x1B ≤ (0x1B#8).toNat ∧ (0x36#8).toNat ≤ 0x36 ∧
    0x37 ≤ (0x37#8).toNat ∧ (0x5D#8).toNat ≤ 0x5D ∧ 0x5E ≤ (0x5E#8).toNat ∧ 0x5E ≤ (0xFF#8).toNat := by decide
/-- Both clauses at the boundary. -/
theorem witness_EffectivePeriodAndStep : 0 < 9 * cycle ∧ 9 * cycle ≤ 9 * cycle ∧ 9 * cycle < 9 * cycle + 1 := by decide

/-- A counter that the tick takes to exactly the period, the first value of the window. -/
def atPeriod (v : VoiceState) : VoiceState := { v with rc := 8 * cycle }

/-- No crossing below the window, at its end and with the check skipped: period 9 cycles, ratio 1 cycle. -/
theorem witness_CrossingRunsThePrescaler_none :
    (7 * cycle + cycle) % (0x8000 * 2 ^ tc1.ratioFracBits) < effPeriod (ratePeriod tc1 0#4 * 2 ^ tc1.ratioFracBits) cycle ∧
    effPeriod (ratePeriod tc1 0#4 * 2 ^ tc1.ratioFracBits) cycle + cycle ≤
      (9 * cycle + cycle) % (0x8000 * 2 ^ tc1.ratioFracBits) ∧
    skipsCheck (regs 0 0 0x01 0 0x01) (voiceEnv 0 false false false false) = true ∧
    rateIndex (regs 0 0 0 0 0) (gateEdge (regs 0 0 0 0 0) (voiceEnv 5 false false false false)) = 0#4 := by decide
/-- A crossing at the first value of the window, in attack; with the prescaler at its period; and one below it. -/
theorem witness_CrossingRunsThePrescaler :
    skipsCheck (regs 0 0 0x01 0 0) (atPeriod (voiceEnv 0 true true true false)) = false ∧
    skipsCheck (regs 0 0 0 0 0) (atPeriod { voiceEnv 1 false false false false with expcnt := 29#8 }) = false ∧
    effPeriod (ratePeriod tc1 0#4 * 2 ^ tc1.ratioFracBits) cycle ≤ (8 * cycle + cycle) % (0x8000 * 2 ^ tc1.ratioFracBits) ∧
    (8 * cycle + cycle) % (0x8000 * 2 ^ tc1.ratioFracBits) <
      effPeriod (ratePeriod tc1 0#4 * 2 ^ tc1.ratioFracBits) cycle + cycle ∧
    rateIndex (regs 0 0 0x01 0 0) (gateEdge (regs 0 0 0x01 0 0) (atPeriod (voiceEnv 0 true true true false))) = 0#4 ∧
    (gateEdge (regs 0 0 0x01 0 0) (atPeriod (voiceEnv 0 true true true false))).attackF = true ∧
    rateIndex (regs 0 0 0 0 0) (gateEdge (regs 0 0 0 0 0) (atPeriod (voiceEnv 1 false false false false))) = 0#4 ∧
    (gateEdge (regs 0 0 0 0 0) (atPeriod (voiceEnv 1 false false false false))).attackF = false ∧
    expPeriod tc1 1#8 ≤ ((29#8).toNat + 1) % 256 ∧ ((28#8).toNat + 1) % 256 < expPeriod tc1 1#8 := by decide
theorem witness_AttackStepClampsAndEnds :
    (voiceEnv 0 false false false true).holdzeroF = true ∧
    ((voiceEnv 254 true true true false).holdzeroF = false ∧ (voiceEnv 254 true true true false).attackF = true ∧
      min 255 ((voiceEnv 254 true true true false).env.toNat + 1) = 255 ∧ (voiceEnv 254 true true true false).dsF = true) := by
  decide
/-- At the sustain level the voice holds; one above it, and in release at any level, it falls. -/
theorem witness_DecayAndReleaseStep :
    ((voiceEnv 136 true false true false).holdzeroF = false ∧ (voiceEnv 136 true false true false).attackF = false) ∧
    ((voiceEnv 136 true false true false).dsF = true ∧
      (voiceEnv 136 true false true false).env.toNat ≤ (regs 0 0 0x01 0 0x80).sr.toNat / 16 * 17) ∧
    (regs 0 0 0x01 0 0x80).sr.toNat / 16 * 17 < (voiceEnv 137 true false true false).env.toNat ∧
    (voiceEnv 0 false false false false).dsF = false := by decide
/-- A tick that raises the level and one that lowers it. -/
theorem witness_LevelRisesOnlyInAttack :
    (voiceEnv 0 true true true false).env.toNat <
      (envTick tc1 (regs 0 0 0x01 0 0) cycle (atPeriod (voiceEnv 0 true true true false))).env.toNat ∧
    (envTick tc1 (regs 0 0 0 0 0) cycle (atPeriod (voiceEnv 0xFF false false false false))).env.toNat <
      (voiceEnv 0xFF false false false false).env.toNat := by decide
/-- The hypothesis of EnvelopeTickIsTheCollectedOne, InvariantHoldsAtReset and PeriodTables' last clause. -/
theorem witness_configWf : configWf tc1 = true := by decide

/-! #### Oscillator -/

/-- TEST; SYNC with a rising bit 23; SYNC without one, and a rise without SYNC. -/
theorem witness_AccumulatorUpdate :
    (regs 0 0 0x08 0 0).wg.getLsbD 3 = true ∧
    ((regs 0 0 0x02 0 0).wg.getLsbD 1 = true ∧ (0x800000#24).getLsbD 23 = true ∧ (0x7FFFFF#24).getLsbD 23 = false) ∧
    ¬ ((regs 0 0 0x02 0 0).wg.getLsbD 3 = true ∨
      ((regs 0 0 0x02 0 0).wg.getLsbD 1 = true ∧ (0x800000#24).getLsbD 23 = true ∧ (0x800000#24).getLsbD 23 = false)) ∧
    ¬ ((regs 0 0 0xF5 0 0).wg.getLsbD 3 = true ∨ (regs 0 0 0xF5 0 0).wg.getLsbD 1 = true) := by decide
theorem witness_SyncSourceSettings :
    tc1.syncSource = .observed ∧ { tc1 with syncSource := .predecessor }.syncSource = .predecessor := ⟨rfl, rfl⟩
theorem witness_VoiceTickPartsKeepTheirFrames : VoiceId.v3 ≠ VoiceId.v1 := by decide
/-- Due by the limit, due by bit 20, and not due at the limit itself (a limit of 0x1000 for the last). -/
theorem witness_NoiseClockCondition :
    tc1.noiseStepLimit < (0xFFFF#16).toNat * 1114112 / 2 ^ tc1.ratioFracBits ∧
    (0x100000#24).getLsbD 20 ≠ (0x0FFFFF#24).getLsbD 20 ∧
    ¬ ({ tc1 with noiseStepLimit := 0x1000 }.noiseStepLimit < (0x1000#16).toNat * cycle / 2 ^ tc1.ratioFracBits ∨
      (0x001000#24).getLsbD 20 ≠ (0x000000#24).getLsbD 20) := by decide
/-- Every waveform field, the noise lock at both ends of its range. -/
theorem witness_WaveformSelection :
    (regs 0 0 0x0F 0 0).wg.toNat / 16 = 0 ∧ (regs 0 0 0x10 0 0).wg.toNat / 16 = 1 ∧ (regs 0 0 0x20 0 0).wg.toNat / 16 = 2 ∧
    (regs 0 0 0x40 0 0).wg.toNat / 16 = 4 ∧ (regs 0 0 0x30 0 0).wg.toNat / 16 = 3 ∧ (regs 0 0 0x50 0 0).wg.toNat / 16 = 5 ∧
    (regs 0 0 0x60 0 0).wg.toNat / 16 = 6 ∧ (regs 0 0 0x70 0 0).wg.toNat / 16 = 7 ∧
    9 ≤ (regs 0 0 0x90 0 0).wg.toNat / 16 ∧ 9 ≤ (regs 0 0 0xF0 0 0).wg.toNat / 16 := by decide
theorem witness_NoiseOutputBits : (regs 0 0 0x81 0 0).wg.toNat / 16 = 8 ∧ 7 < 8 := by decide
theorem witness_NoiseRegisterShift : 0 < 22 ∧ 21 < 22 := by decide
/-- The pulse threshold at and just above the accumulator's high bits. -/
theorem witness_DefaultWaveShapes : (0x8000#16).toNat ≤ (0x8000#16).toNat ∧ (0x7FFF#16).toNat < (0x8000#16).toNat := by decide
/-- A waveform field of 0, the smallest that is not, and the lowest noise lock. -/
theorem witness_FloatingDacHold :
    (regs 0 0 0x0F 0 0).wg.toNat / 16 = 0 ∧ (regs 0 0 0x10 0 0).wg.toNat / 16 ≠ 0 ∧
    9 ≤ (regs 0 0 0x90 0 0).wg.toNat / 16 := by decide
/-- The triangle alone, with RING and the source's top bit set, and without. -/
theorem witness_TriangleFoldsTheRingedAccumulator :
    ((regs 0 0 0x14 0 0).wg.toNat / 16 = 1 ∧ (regs 0 0 0x14 0 0).wg.getLsbD 2 = true ∧
      ((oscTick tc1 (regs 0 0 0x14 0 0) cycle .v3 (onlyFirst (voiceAt 0x800000))).get (syncSource tc1 .v3)).acc.getLsbD 23 = true) ∧
    ((regs 0 0 0x10 0 0).wg.toNat / 16 = 1 ∧ ¬ (regs 0 0 0x10 0 0).wg.getLsbD 2 = true) := by decide
theorem witness_ZeroFrequencyHoldsTheOutput :
    (regs 0 0 0x20 0 0).fq = 0#16 ∧ (regs 0 0 0x20 0 0).wg.getLsbD 1 = false ∧
    (regs 0 0 0x20 0 0).wg.getLsbD 2 = false ∧ (regs 0 0 0x20 0 0).wg.getLsbD 3 = false := by decide

/-! #### Mixer, binary64, reset and invariants -/

/-- A sum below the overflow limit, one at or past it (twice the largest finite number), a divisor that is not 0. -/
theorem witness_OperationsRoundToNearestEven :
    (F64.signedUnits false 1023 0#52 + F64.signedUnits false 1023 1#52).natAbs < (2 ^ 54 - 1) * 2 ^ 2044 * 1 ∧
    (2 ^ 54 - 1) * 2 ^ 2044 * 1 ≤
      (F64.signedUnits false 2046 0xFFFFFFFFFFFFF#52 + F64.signedUnits false 2046 0xFFFFFFFFFFFFF#52).natAbs ∧
    F64.signedUnits false 1023 0#52 ≠ 0 := by decide +kernel
theorem witness_IntegersAndContributionsAreExact : (2 ^ 53 - 1 : Int).natAbs < 2 ^ 53 := by decide
/-- Voice 3 off and not routed; voice 3 routed. -/
theorem witness_VoiceThreeOffSilencesOnlyTheUnrouted :
    ((0x80#8).getLsbD 7 = true ∧ (0x03#8).getLsbD 2 = false) ∧ (0x04#8).getLsbD 2 = true := by decide

/-- Volume 0 with voice 3 off, the one upper bit that the hypothesis leaves open. -/
def mutedState : State := { State.reset with params := { Params.zero with typeVol := 0x80#8 } }

theorem witness_VolumeZeroIsSilent :
    mutedState.engine.init = true ∧ configWf mutedState.cfg = true ∧ mutedState.params.typeVol.toNat % 128 = 0 :=
  ⟨rfl, by decide, by decide⟩
/-- The smallest positive rate, with a command pending; and a rate of 0. -/
theorem witness_ResetSetsEveryField : (1#24 : BitVec 24) ≠ 0#24 ∧
    (hostReset tc1 1#24 (pending 0x4300000F)).stream = 0x4300000F#32 :: [] ∧ (0#24 : BitVec 24) = 0#24 := by decide
theorem witness_StepKeepsTheInvariant :
    Inv (pending 0x80000000) ∧ ∃ t, step (pending 0x80000000) = .next t ∧ t.engine.frame = 1 := by
  refine ⟨pending_inv _, ?_⟩
  have h : answers (step (pending 0x80000000)) (fun t => decide (t.engine.frame = 1)) = true := by decide
  obtain ⟨t, ht, hp⟩ := exists_of_answers h
  exact ⟨t, ht, of_decide_eq_true hp⟩
theorem witness_SteadyOperationNeverFaults : SafeRun (pending 0x5000AC44) := by
  refine ⟨rfl, rfl, fun w hw => ?_⟩
  have : w = 0x5000AC44#32 := by simpa [pending, State.reset, State.resetWith] using hw
  subst this
  decide

end Sys2Proof.Tests
end

section
/-!
PROOFS. Binary64 operations and the voices' contributions (00_scope.md R13, 43_filter_mixer.md R200): every operation on
finite operands is one `F64.ofQuotient` of a signed exact value, so its rounding is that of `F64.ofQuotient`; where the
exact value has at most 53 bits nothing is rounded.
-/

namespace Sys2Proof

open Sys2Proof.Machine

/-! ### Magnitudes with a sign -/

/-- The magnitude `n` with the sign bit `neg`. -/
def withSign (neg : Bool) (n : Nat) : Int := if neg then -(n : Int) else n

theorem signedUnits_eq_withSign (neg : Bool) (e : Fin 2047) (f : BitVec 52) :
    F64.signedUnits neg e f = withSign neg (F64.units e f) := rfl

@[simp] theorem natAbs_withSign (neg : Bool) (n : Nat) : (withSign neg n).natAbs = n := by
  cases neg <;> simp [withSign]

theorem withSign_decide_natAbs (z : Int) : withSign (decide (z < 0)) z.natAbs = z := by
  by_cases h : z < 0
  · rw [withSign, decide_eq_true h, if_pos rfl]
    omega
  · rw [withSign, decide_eq_false h, if_neg Bool.false_ne_true]
    omega

theorem neg_withSign (neg : Bool) (n : Nat) : -withSign neg n = withSign (!neg) n := by
  cases neg <;> simp [withSign]

theorem withSign_mul (s t : Bool) (a b : Nat) : withSign s a * withSign t b = withSign (s ^^ t) (a * b) := by
  cases s <;> cases t <;> simp [withSign]

theorem withSign_mul_natCast (s : Bool) (a b : Nat) : withSign s a * (b : Int) = withSign s (a * b) := by
  cases s <;> simp [withSign]

theorem withSign_mul_two_pow (s : Bool) (a k : Nat) : withSign s a * 2 ^ k = withSign s (a * 2 ^ k) := by
  rw [← withSign_mul_natCast, Nat.cast_pow, Nat.cast_ofNat]

theorem sign_withSign (t : Bool) {b : Nat} (hb : 0 < b) : (withSign t b).sign = withSign t 1 := by
  have hsign : (b : Int).sign = 1 := Int.sign_eq_one_of_pos (by omega)
  cases t <;> simp [withSign, hsign]

theorem natAbs_signedUnits {neg : Bool} {e : Fin 2047} {f : BitVec 52} {z : Int} {k : Nat}
    (h : F64.signedUnits neg e f = z * 2 ^ k) : F64.units e f = z.natAbs * 2 ^ k := by
  have habs := congrArg Int.natAbs h
  rwa [signedUnits_eq_withSign, natAbs_withSign, Int.natAbs_mul, Int.natAbs_pow] at habs

theorem units_pos_of_signedUnits_ne_zero {neg : Bool} {e : Fin 2047} {f : BitVec 52}
    (h : F64.signedUnits neg e f ≠ 0) : 0 < F64.units e f := by
  rwa [← Int.natAbs_pos, signedUnits_eq_withSign, natAbs_withSign] at h

/-- The sign bit of a magnitude that is not 0 is read off its value. -/
theorem decide_withSign_neg (neg : Bool) {n : Nat} (hn : 0 < n) : decide (withSign neg n < 0) = neg := by
  cases neg <;> simp [withSign, hn]

/-! ### Rounding of a signed exact value -/

/-- What R13 asks of the result `z` of an operation whose exact value is `num / den` units: the nearest finite number
below half a unit past the largest finite number, and an infinity of the value's sign from there on. -/
def RoundsTo (z : F64) (num : Int) (den : Nat) : Prop :=
  (num.natAbs < (2 ^ 54 - 1) * 2 ^ 2044 * den → NearestEven z num den) ∧
  ((2 ^ 54 - 1) * 2 ^ 2044 * den ≤ num.natAbs → z = .inf (decide (num < 0)))

theorem overflowLimit_pos {den : Nat} (hden : 0 < den) : 0 < (2 ^ 54 - 1) * 2 ^ 2044 * den := by
  positivity

theorem ofQuotient_roundsTo (neg : Bool) (num den : Nat) (hden : 0 < den) :
    RoundsTo (F64.ofQuotient neg num den) (withSign neg num) den := by
  unfold RoundsTo
  rw [natAbs_withSign]
  refine ⟨ofQuotient_nearestEven neg num den hden, fun hlimit => ?_⟩
  rw [decide_withSign_neg neg (Nat.lt_of_lt_of_le (overflowLimit_pos hden) hlimit)]
  exact ofQuotient_inf neg num den hden hlimit

/-- A value of at most 53 bits at a scale `2^a` is below the overflow threshold, up to `a = 2044`. -/
theorem scaled_lt_overflowLimit {j a den : Nat} (hden : 0 < den) (hj : j < 2 ^ 53) (ha : a ≤ 2044) :
    j * 2 ^ a * den < (2 ^ 54 - 1) * 2 ^ 2044 * den := by
  have hj' : j < 2 ^ 54 - 1 := by omega
  have hscaled : j * 2 ^ a < (2 ^ 54 - 1) * 2 ^ 2044 :=
    calc j * 2 ^ a ≤ j * 2 ^ 2044 := Nat.mul_le_mul_left j (two_pow_le ha)
      _ < (2 ^ 54 - 1) * 2 ^ 2044 := Nat.mul_lt_mul_of_pos_right hj' (by positivity)
  exact Nat.mul_lt_mul_of_pos_right hscaled hden

/-- A zero of either sign is the rounded value of an exact 0. -/
theorem zero_roundsTo (neg : Bool) : RoundsTo (.finite neg 0 0#52) 0 1 := by
  have hzero : F64.signedUnits neg 0 0#52 = 0 := by cases neg <;> rfl
  refine ⟨fun _ s' e' f' => ?_, fun hlimit => ?_⟩
  · rw [hzero]
    exact ⟨by simp, fun _ _ => rfl⟩
  · exact absurd hlimit (Nat.not_le_of_lt (overflowLimit_pos Nat.one_pos))

/-! ### The four operations on finite operands -/

section
variable (s t : Bool) (e e' : Fin 2047) (f f' : BitVec 52)

theorem add_roundsTo :
    RoundsTo (F64.add (.finite s e f) (.finite t e' f')) (F64.signedUnits s e f + F64.signedUnits t e' f') 1 := by
  unfold F64.add
  dsimp only
  generalize F64.signedUnits s e f + F64.signedUnits t e' f' = sum
  split
  case isTrue hsum =>
    rw [hsum]
    exact zero_roundsTo (s && t)
  case isFalse =>
    have h := ofQuotient_roundsTo (decide (sum < 0)) sum.natAbs 1 Nat.one_pos
    rwa [withSign_decide_natAbs] at h

theorem sub_roundsTo :
    RoundsTo (F64.sub (.finite s e f) (.finite t e' f')) (F64.signedUnits s e f - F64.signedUnits t e' f') 1 := by
  have h := add_roundsTo s (!t) e e' f f'
  rwa [signedUnits_eq_withSign (!t), ← neg_withSign, ← signedUnits_eq_withSign, ← sub_eq_add_neg] at h

theorem mul_roundsTo :
    RoundsTo (F64.mul (.finite s e f) (.finite t e' f')) (F64.signedUnits s e f * F64.signedUnits t e' f') (2 ^ 1074) := by
  rw [signedUnits_eq_withSign, signedUnits_eq_withSign, withSign_mul, ← oneUnits_eq]
  exact ofQuotient_roundsTo (s ^^ t) (F64.units e f * F64.units e' f') F64.oneUnits oneUnits_pos

/-- Division by a number that is not 0 is one rounded quotient. -/
theorem div_finite (hpos : 0 < F64.units e' f') :
    F64.div (.finite s e f) (.finite t e' f') =
      F64.ofQuotient (s ^^ t) (F64.units e f * 2 ^ 1074) (F64.units e' f') := by
  rw [← oneUnits_eq]
  exact if_neg (Nat.ne_of_gt hpos)

theorem div_roundsTo (hpos : 0 < F64.units e' f') :
    RoundsTo (F64.div (.finite s e f) (.finite t e' f'))
      (F64.signedUnits s e f * 2 ^ 1074 * (F64.signedUnits t e' f').sign) (F64.signedUnits t e' f').natAbs := by
  have hnum : withSign s (F64.units e f) * 2 ^ 1074 * withSign t 1 = withSign (s ^^ t) (F64.units e f * 2 ^ 1074) := by
    rw [withSign_mul_two_pow, withSign_mul, Nat.mul_one]
  rw [div_finite s t e e' f f' hpos, signedUnits_eq_withSign, signedUnits_eq_withSign, natAbs_withSign,
    sign_withSign t hpos, hnum]
  exact ofQuotient_roundsTo (s ^^ t) _ _ hpos

/-- A quotient of at most 53 bits at some scale `2^a` is exact. -/
theorem div_exact {j a : Nat} (hpos : 0 < F64.units e' f') (hj : j < 2 ^ 53) (ha : a ≤ 2044)
    (hquot : F64.units e f * 2 ^ 1074 = j * 2 ^ a * F64.units e' f') :
    ∃ s'' e'' f'', F64.div (.finite s e f) (.finite t e' f') = .finite s'' e'' f'' ∧
      F64.signedUnits s'' e'' f'' * F64.signedUnits t e' f' = F64.signedUnits s e f * 2 ^ 1074 := by
  obtain ⟨e'', f'', hdiv, hunits⟩ := ofQuotient_exact (s ^^ t) j a _ hpos hj (scaled_lt_overflowLimit hpos hj ha)
  refine ⟨s ^^ t, e'', f'', ?_, ?_⟩
  · rw [div_finite s t e e' f f' hpos, hquot, hdiv]
  · rw [signedUnits_eq_withSign, signedUnits_eq_withSign, signedUnits_eq_withSign, withSign_mul, hunits, ← hquot,
      withSign_mul_two_pow, Bool.xor_assoc, Bool.xor_self, Bool.xor_false]

end

/-! ### Exact conversion and contribution -/

/-- An integer of at most 53 bits converts to the finite number of its value. -/
theorem ofInt_exact {n : Int} (hn : n.natAbs < 2 ^ 53) :
    ∃ s e f, F64.ofInt n = .finite s e f ∧ F64.signedUnits s e f = n * 2 ^ 1074 := by
  obtain ⟨e, f, hfinite, hunits⟩ := ofQuotient_exact (decide (n < 0)) n.natAbs 1074 1 Nat.one_pos hn
    (scaled_lt_overflowLimit Nat.one_pos hn (by decide))
  refine ⟨decide (n < 0), e, f, ?_, ?_⟩
  · rwa [Nat.mul_one, ← oneUnits_eq] at hfinite
  · rw [signedUnits_eq_withSign, hunits, ← withSign_mul_two_pow, withSign_decide_natAbs]

/-- An output level times an envelope level has at most 23 bits. -/
theorem contribution_numerator_lt (v : VoiceState) :
    (((v.out.toNat : Int) - 32768) * (v.env.toNat : Int)).natAbs < 2 ^ 23 := by
  have hout := v.out.isLt
  have henv := v.env.isLt
  have hlevel : ((v.out.toNat : Int) - 32768).natAbs ≤ 2 ^ 15 := by omega
  rw [Int.natAbs_mul, Int.natAbs_natCast]
  calc ((v.out.toNat : Int) - 32768).natAbs * v.env.toNat
      ≤ 2 ^ 15 * v.env.toNat := Nat.mul_le_mul_right _ hlevel
    _ < 2 ^ 15 * 2 ^ 8 := Nat.mul_lt_mul_of_pos_left henv (by decide)
    _ = 2 ^ 23 := by decide

/-- Dividing an integer below 2^53 by 256 is exact: it only lowers the scale by eight. -/
theorem div256_exact {n : Int} (hn : n.natAbs < 2 ^ 53) :
    ∃ s e f, F64.div (F64.ofInt n) (F64.ofInt 256) = .finite s e f ∧ F64.signedUnits s e f * 256 = n * 2 ^ 1074 := by
  obtain ⟨s, e, f, hn', hvalue⟩ := ofInt_exact hn
  obtain ⟨t, e', f', h256, hvalue256⟩ := ofInt_exact (n := 256) (by decide)
  have hunits : F64.units e f = n.natAbs * 2 ^ 1074 := natAbs_signedUnits hvalue
  have hunits256 : F64.units e' f' = Int.natAbs 256 * 2 ^ 1074 := natAbs_signedUnits hvalue256
  have hpos : 0 < F64.units e' f' := units_pos_of_signedUnits_ne_zero (by rw [hvalue256]; positivity)
  have hquot : F64.units e f * 2 ^ 1074 = n.natAbs * 2 ^ 1066 * F64.units e' f' := by
    have hscale : 2 ^ 1074 = 2 ^ 1066 * 256 := by rw [← show 2 ^ 8 = 256 from rfl, ← Nat.pow_add]
    rw [hunits, hunits256, show Int.natAbs 256 = 256 from rfl, ← Nat.mul_assoc, Nat.mul_assoc _ (2 ^ 1066), ← hscale]
  obtain ⟨s'', e'', f'', hdiv, hvalue''⟩ := div_exact s t e e' f f' hpos hn (by decide) hquot
  refine ⟨s'', e'', f'', by rw [hn', h256, hdiv], ?_⟩
  rw [hvalue, hvalue256, ← Int.mul_assoc] at hvalue''
  exact Int.eq_of_mul_eq_mul_right (pow_ne_zero 1074 two_ne_zero) hvalue''

/-! ### The obligations -/

/-- Settles O51: each operation on finite operands is one rounding of its exact value. -/
theorem operationsRoundToNearestEven : Obligations.OperationsRoundToNearestEven := by
  intro s t e e' f f'
  refine ⟨add_roundsTo s t e e' f f', sub_roundsTo s t e e' f f', mul_roundsTo s t e e' f f', fun hn => ?_⟩
  exact div_roundsTo s t e e' f f' (units_pos_of_signedUnits_ne_zero hn)

/-- Settles O52: an integer's conversion drops no bit, and the division by 256 only lowers the scale. -/
theorem integersAndContributionsAreExact : Obligations.IntegersAndContributionsAreExact :=
  ⟨fun _ hn => ofInt_exact hn,
    fun v => div256_exact (Nat.lt_trans (contribution_numerator_lt v) (by decide))⟩

end Sys2Proof
end

section
/-!
PROOFS. The invariant of a run and the envelope flags (10_state.md R24, R27, R30; 41_envelope.md R131, R144): every part of
a TICK keeps `VoiceInv`, and without a rising gate edge no part sets gate, attack or decay-sustain or clears hold-zero. What
a command does to the whole state follows from `exec_cases`.
-/

namespace Sys2Proof.Machine

/-! ### The noise register never locks up (R171, R273) -/

theorem lfsrClock_getLsbD_zero (l : BitVec 23) : (lfsrClock l).getLsbD 0 = (l.getLsbD 22 ^^ l.getLsbD 17) := by
  simp [lfsrClock]

theorem lfsrClock_getLsbD_succ (l : BitVec 23) {k : Nat} (h : k < 22) : (lfsrClock l).getLsbD (k + 1) = l.getLsbD k := by
  have inside : k + 1 < 23 := Nat.succ_lt_succ h
  simp [lfsrClock, inside, BitVec.getLsbD_eq_getElem (Nat.lt_of_succ_lt inside)]

/-- The bits shifted up show the low 22 bits; with those 0, the feedback bit shows the top one. -/
theorem lfsrClock_eq_zero_iff (l : BitVec 23) : lfsrClock l = 0#23 ↔ l = 0#23 := by
  refine ⟨fun h => ?_, fun h => by rw [h]; decide⟩
  have low {k : Nat} (hk : k < 22) : l.getLsbD k = false := by
    rw [← lfsrClock_getLsbD_succ l hk, h, BitVec.getLsbD_zero]
  have top : l.getLsbD 22 = false := by
    have feedback := lfsrClock_getLsbD_zero l
    rwa [h, BitVec.getLsbD_zero, low (k := 17) (by decide), Bool.xor_false, eq_comm] at feedback
  refine BitVec.eq_of_getLsbD_eq fun k hk => ?_
  rw [BitVec.getLsbD_zero]
  rcases Nat.lt_succ_iff_lt_or_eq.mp hk with hlow | rfl
  · exact low hlow
  · exact top

/-! ### The parts of a voice's tick keep the voice's invariant -/

theorem rcModulus_pos (c : Config) : 0 < rcModulus c :=
  Nat.mul_pos (by decide) (Nat.two_pow_pos _)

section
variable {c : Config} {v : VoiceState}

theorem VoiceInv.gateEdge (h : VoiceInv c v) (r : VoiceRegs) : VoiceInv c (gateEdge r v) := by
  rcases gateEdge_cases r v with ⟨-, -, rises⟩ | ⟨-, -, falls⟩ | ⟨-, same⟩
  · rw [rises]
    exact ⟨h.rc_lt, h.lfsr_ne, rfl, rfl, fun _ => rfl, fun _ => rfl, fun hold => Bool.noConfusion hold⟩
  · rw [falls]
    exact ⟨h.rc_lt, h.lfsr_ne, rfl, rfl, fun attack => attack, fun attack => Bool.noConfusion attack, h.hold_env⟩
  · rw [same]
    exact h

theorem VoiceInv.envAdvance (h : VoiceInv c v) (r : VoiceRegs) (ratio : Nat) : VoiceInv c (envAdvance c r ratio v) :=
  { h.gateEdge r with rc_lt := rcAdvance_lt c ratio v.rc }

theorem VoiceInv.stepLogic (h : VoiceInv c v) (r : VoiceRegs) (step : Nat) : VoiceInv c (stepLogic r step v) := by
  rcases stepLogic_cases r step v with same | ⟨no_hold, attack, up⟩ | ⟨-, no_attack, down⟩
  · rw [same]
    exact h
  · rw [up]
    exact { h with
      attack_ds := fun _ => h.attack_ds attack
      attack_no_hold := fun _ => no_hold
      hold_env := fun hold => absurd hold (ne_true_of_eq_false no_hold) }
  · rw [down]
    refine { h with
      attack_no_hold := fun attack => absurd attack (ne_true_of_eq_false no_attack)
      hold_env := fun hold => ?_ }
    rw [holdzeroAfter, Bool.false_or, Bool.and_eq_true, decide_eq_true_eq, decide_eq_true_eq] at hold
    exact hold.2

theorem VoiceInv.crossed (h : VoiceInv c v) (r : VoiceRegs) (eff step : Nat) : VoiceInv c (crossed c r eff step v) := by
  have reduced : VoiceInv c { v with rc := v.rc - eff } :=
    { h with rc_lt := Nat.lt_of_le_of_lt (Nat.sub_le _ _) h.rc_lt }
  rcases crossed_cases c r eff step v with logic | ⟨-, counts⟩
  · rw [logic]
    exact { reduced.stepLogic r step with }
  · rw [counts]
    exact { reduced with }

theorem VoiceInv.envTick (h : VoiceInv c v) (r : VoiceRegs) (ratio : Nat) : VoiceInv c (envTick c r ratio v) := by
  have advanced := h.envAdvance r ratio
  rcases envTick_cases c r ratio v with advance | ⟨eff, step, -, crossing⟩
  · rw [advance]
    exact advanced
  · rw [crossing]
    exact advanced.crossed r eff step

theorem VoiceInv.oscAdvance (h : VoiceInv c v) (r : VoiceRegs) (ratio : Nat) (rise : Bool) :
    VoiceInv c (oscAdvance c r ratio rise v) := by
  refine { h with lfsr_ne := ?_ }
  dsimp only [Machine.oscAdvance]
  split
  · exact fun zero => h.lfsr_ne ((lfsrClock_eq_zero_iff v.lfsr).mp zero)
  · exact h.lfsr_ne

theorem VoiceInv.oscDrive (h : VoiceInv c v) (r : VoiceRegs) (y : BitVec 16) : VoiceInv c (oscDrive r y v) :=
  { h with }

theorem VoiceInv.voicesTick {vs : Voices} {id : VoiceId} (h : VoiceInv c (vs.get id)) (p : Params) (ratio : Nat) :
    VoiceInv c ((voicesTick c p ratio vs).get id) := by
  obtain ⟨y, rise, ticked⟩ := voicesTick_get c p ratio id vs
  rw [ticked]
  exact ((h.envTick (p.regs id) ratio).oscAdvance (p.regs id) ratio rise).oscDrive (p.regs id) y

end

/-! ### Every command keeps the invariant -/

theorem EngineInv.withRate {c : Config} {rate : BitVec 24} (h : rate ≠ 0#24) (e : EngineState) :
    EngineInv c (e.withRate c rate) :=
  ⟨fun _ => h, fun _ => rfl, fun _ => rfl⟩

theorem EngineInv.of_not_init {c : Config} {e : EngineState} (h : e.init = false) : EngineInv c e := by
  have off {P : Prop} (init : e.init = true) : P := absurd init (ne_true_of_eq_false h)
  exact ⟨off, off, off⟩

/-- The parameter registers, the filter, the stream and the outputs are no part of the invariant. -/
theorem Inv.of_eq {s t : State} (h : Inv s) (cfg : t.cfg = s.cfg) (voices : t.voices = s.voices)
    (engine : EngineInv s.cfg t.engine) : Inv t := by
  refine ⟨?_, ?_, ?_⟩
  · rw [cfg]
    exact h.cfg_wf
  · rw [cfg, voices]
    exact h.voices
  · rw [cfg]
    exact engine

theorem Inv.raiseConfigError {s : State} (h : Inv s) (cause : ConfigError) (w : CmdWord) :
    Inv (raiseConfigError cause w s) :=
  h.of_eq rfl rfl { h.engine with }

theorem Inv.tickState {s : State} (h : Inv s) : Inv (tickState s) :=
  ⟨h.cfg_wf, fun id => (h.voices id).voicesTick s.params s.engine.ratioFx, { h.engine with }⟩

theorem Inv.exec {i : Instr} {s t : State} (h : Inv s) (he : exec i s = .next t) : Inv t := by
  rcases exec_cases he with ⟨-, p, rfl⟩ | ⟨n, -, positive, rfl⟩ | ⟨n, -, -, rfl⟩ | ⟨n, -, -, rfl⟩ | ⟨n, -, -, rfl⟩
  · exact h.of_eq rfl rfl h.engine
  · exact h.of_eq rfl rfl (EngineInv.withRate positive s.engine)
  · exact h.raiseConfigError .sampleRateNotPositive (wordOf 0x50#8 n)
  · exact h.tickState
  · exact h.raiseConfigError .notInitialized (wordOf 0x80#8 n)

/-! ### The invariant at construction -/

theorem lfsrSeed_ne_of_configWf {c : Config} (h : configWf c = true) : c.lfsrSeed ≠ 0#23 := by
  simp only [configWf, Bool.and_eq_true, decide_eq_true_eq] at h
  obtain ⟨⟨⟨⟨-, seed⟩, -⟩, -⟩, -⟩ := h
  exact seed

theorem resetVoice_voiceInv {c : Config} (h : configWf c = true) : VoiceInv c (resetVoice c) :=
  ⟨rcModulus_pos c, lfsrSeed_ne_of_configWf h, rfl, rfl, fun attack => attack, fun _ => rfl, fun _ => rfl⟩

theorem resetVoices_get (c : Config) (id : VoiceId) : (resetVoices c).get id = resetVoice c := by
  cases id <;> rfl

/-- Construction is the reset voices with an engine: one of the given rate, or the one that the failed reset leaves. -/
theorem resetWith_inv {c : Config} (h : configWf c = true) (rate : BitVec 24) : Inv (State.resetWith c rate) := by
  have voices (id : VoiceId) : VoiceInv c ((resetVoices c).get id) := resetVoices_get c id ▸ resetVoice_voiceInv h
  by_cases zero : rate = 0#24
  · rw [State.resetWith, if_pos zero]
    exact ⟨h, voices, EngineInv.of_not_init rfl⟩
  · rw [State.resetWith, if_neg zero]
    exact ⟨h, voices, EngineInv.withRate zero { EngineState.powerOn with init := true }⟩

/-! ### The envelope flags (R27, 90 C2) -/

/-- From `v` to `w` no gate, attack or decay-sustain flag is set, and hold-zero is not cleared. -/
structure NoFlagRises (v w : VoiceState) : Prop where
  gate   : w.gateF = true → v.gateF = true
  attack : w.attackF = true → v.attackF = true
  ds     : w.dsF = true → v.dsF = true
  hold   : v.holdzeroF = true → w.holdzeroF = true

theorem NoFlagRises.refl (v : VoiceState) : NoFlagRises v v := ⟨id, id, id, id⟩

theorem NoFlagRises.trans {u v w : VoiceState} (h : NoFlagRises u v) (k : NoFlagRises v w) : NoFlagRises u w :=
  ⟨h.gate ∘ k.gate, h.attack ∘ k.attack, h.ds ∘ k.ds, k.hold ∘ h.hold⟩

theorem gateEdge_noFlagRises {r : VoiceRegs} {v : VoiceState} (h : ¬ (gateBit r = true ∧ v.prevGate = false)) :
    NoFlagRises v (gateEdge r v) := by
  rcases gateEdge_cases r v with ⟨bit, prev, -⟩ | ⟨-, -, falls⟩ | ⟨-, same⟩
  · exact absurd ⟨bit, prev⟩ h
  · rw [falls]
    exact ⟨fun gate => Bool.noConfusion gate, fun attack => Bool.noConfusion attack, fun ds => Bool.noConfusion ds, id⟩
  · rw [same]
    exact .refl v

theorem stepLogic_noFlagRises (r : VoiceRegs) (step : Nat) (v : VoiceState) : NoFlagRises v (stepLogic r step v) := by
  rcases stepLogic_cases r step v with same | ⟨-, attack, up⟩ | ⟨no_hold, -, down⟩
  · rw [same]
    exact .refl v
  · rw [up]
    exact { NoFlagRises.refl v with attack := fun _ => attack }
  · rw [down]
    exact { NoFlagRises.refl v with hold := fun hold => absurd hold (ne_true_of_eq_false no_hold) }

theorem crossed_noFlagRises (c : Config) (r : VoiceRegs) (eff step : Nat) (v : VoiceState) :
    NoFlagRises v (crossed c r eff step v) := by
  rcases crossed_cases c r eff step v with logic | ⟨-, counts⟩
  · rw [logic]
    exact { stepLogic_noFlagRises r step { v with rc := v.rc - eff } with }
  · rw [counts]
    exact { NoFlagRises.refl v with }

theorem envTick_noFlagRises (c : Config) {r : VoiceRegs} (ratio : Nat) {v : VoiceState}
    (h : ¬ (gateBit r = true ∧ v.prevGate = false)) : NoFlagRises v (envTick c r ratio v) := by
  have advanced : NoFlagRises v (envAdvance c r ratio v) := { gateEdge_noFlagRises h with }
  rcases envTick_cases c r ratio v with advance | ⟨eff, step, -, crossing⟩
  · rw [advance]
    exact advanced
  · rw [crossing]
    exact advanced.trans (crossed_noFlagRises c r eff step _)

/-- The oscillator writes no flag, so a voice's flags after a TICK are those its envelope leaves. -/
theorem voicesTick_noFlagRises (c : Config) {p : Params} (ratio : Nat) {vs : Voices} {id : VoiceId}
    (h : ¬ (gateBit (p.regs id) = true ∧ (vs.get id).prevGate = false)) :
    NoFlagRises (vs.get id) ((voicesTick c p ratio vs).get id) := by
  obtain ⟨y, rise, ticked⟩ := voicesTick_get c p ratio id vs
  rw [ticked]
  exact { envTick_noFlagRises c ratio h with }

/-- A command that answers leaves the voices alone, or it is a TICK that does not fault. -/
theorem exec_voices {i : Instr} {s t : State} (h : exec i s = .next t) :
    t.voices = s.voices ∨ ∃ n, i = .tick n ∧ t = tickState s := by
  rcases exec_cases h with ⟨-, p, rfl⟩ | ⟨n, -, -, rfl⟩ | ⟨n, -, -, rfl⟩ | ⟨n, rfl, -, rfl⟩ | ⟨n, -, -, rfl⟩
  · exact .inl rfl
  · exact .inl rfl
  · exact .inl rfl
  · exact .inr ⟨n, rfl, rfl⟩
  · exact .inl rfl

/-- A command raises no flag, unless it is a TICK and the voice's gate bit rises. -/
theorem exec_noFlagRises {i : Instr} {s t : State} (h : exec i s = .next t) (id : VoiceId) :
    NoFlagRises (s.voices.get id) (t.voices.get id) ∨
    (gateBit (s.params.regs id) = true ∧ (s.voices.get id).prevGate = false ∧ ∃ n, i = .tick n) := by
  rcases exec_voices h with voices | ⟨n, rfl, rfl⟩
  · rw [voices]
    exact .inl (.refl _)
  · by_cases rises : gateBit (s.params.regs id) = true ∧ (s.voices.get id).prevGate = false
    · exact .inr ⟨rises.1, rises.2, n, rfl⟩
    · exact .inl (voicesTick_noFlagRises s.cfg s.engine.ratioFx rises)

/-! ### The obligations -/

/-- Settles O59: the command is applied to the state without it in its stream, of which the invariant says nothing. -/
theorem stepKeepsTheInvariant : Obligations.StepKeepsTheInvariant := by
  intro s t h hstep
  obtain ⟨-, ⟨-, rfl⟩ | ⟨w, rest, -, he⟩⟩ := step_cases hstep
  · exact h
  · have consumed : Inv { s with stream := rest } := h.of_eq rfl rfl h.engine
    exact consumed.exec he

/-- Settles O28: each of the four changes contradicts `NoFlagRises`, so the gate bit rose in a TICK. -/
theorem envelopeFlagsFollowGateEdges : Obligations.EnvelopeFlagsFollowGateEdges := by
  intro i s t id he v w rising
  have flags : NoFlagRises v w ∨ rising := exec_noFlagRises he id
  refine ⟨fun off on => ?_, fun off on => ?_, fun off on => ?_, fun on off => ?_⟩
  · exact flags.resolve_left fun kept => absurd (kept.gate on) (ne_true_of_eq_false off)
  · exact flags.resolve_left fun kept => absurd (kept.attack on) (ne_true_of_eq_false off)
  · exact flags.resolve_left fun kept => absurd (kept.ds on) (ne_true_of_eq_false off)
  · exact flags.resolve_left fun kept => absurd (kept.hold on) (ne_true_of_eq_false off)

/-- Settles O58: construction at any rate, and `State.reset` as one construction under legal parameters. -/
theorem invariantHoldsAtReset : Obligations.InvariantHoldsAtReset :=
  ⟨fun _ rate h => resetWith_inv h rate, resetWith_inv (by decide) _⟩

end Sys2Proof.Machine
end
section
/-!
PROOFS. Repeated writes and the order of an update's writes (20_memory.md R63, R67). The write of a key changes one place of
the parameter registers or the sample rate's part of S, so the writes of two different keys commute; a mapping holds each
key at most once, so any order of its writes folds to the same state.
-/

namespace Sys2Proof.Machine

/-! ### What the write of a key changes -/

/-- A voice's registers with one of them written, masked to its width (40_parameter_writes.md R101 to R106). -/
def VoiceField.store (n : Operand) (r : VoiceRegs) : VoiceField → VoiceRegs
  | .fq => { r with fq := maskTo 16 n }
  | .pw => { r with pw := maskTo 12 n }
  | .wg => { r with wg := maskTo 8 n }
  | .ad => { r with ad := maskTo 8 n }
  | .sr => { r with sr := maskTo 8 n }

/-- The parameter registers with one global register written (R107 to R110). -/
def GlobalField.store (n : Operand) (p : Params) : GlobalField → Params
  | .cutL => { p with cutL := maskTo 8 n }
  | .cutH => { p with cutH := maskTo 8 n }
  | .res => { p with res := maskTo 8 n }
  | .typeVol => { p with typeVol := maskTo 8 n }

/-- P after the write of a key. -/
def UpdateKey.storeParams (n : Operand) (p : Params) : UpdateKey → Params
  | .voice f id => p.setRegs (f.store n (p.regs id)) id
  | .global g => g.store n p
  | .sampleRate => p

/-- S after the write of a key (R112, R113). -/
def UpdateKey.storeEngine (c : Config) (n : Operand) (e : EngineState) : UpdateKey → EngineState
  | .sampleRate =>
    if n = 0#24 then { e with fault := some ⟨.sampleRateNotPositive, .command (wordOf 0x50#8 n)⟩ } else e.withRate c n
  | _ => e

/-- A key with the value that an update gives it. -/
abbrev Assignment := UpdateKey × Operand

/-- The state after the write of an assignment. -/
def Assignment.apply (s : State) (a : Assignment) : State :=
  { s with params := a.1.storeParams a.2 s.params, engine := a.1.storeEngine s.cfg a.2 s.engine }

/-- The command word of an assignment. -/
def Assignment.word (a : Assignment) : CmdWord := encode (a.1.write a.2)

theorem exec_write (k : UpdateKey) (n : Operand) (s : State) : exec (k.write n) s = .next (Assignment.apply s (k, n)) := by
  cases k with
  | voice f id => cases f <;> cases id <;> rfl
  | global g => cases g <;> rfl
  | sampleRate =>
    change execSetSr n s = _
    simp only [execSetSr, Assignment.apply, UpdateKey.storeEngine]
    split <;> rfl

theorem decode_word (a : Assignment) : decode a.word = a.1.write a.2 := by
  obtain ⟨k, n⟩ := a
  cases k with
  | voice f id => cases f <;> cases id <;> exact decode_wordOf _ n
  | global g => cases g <;> exact decode_wordOf _ n
  | sampleRate => exact decode_wordOf _ n

theorem storeEngine_sampleRate_idem (c : Config) (n : Operand) (e : EngineState) :
    UpdateKey.sampleRate.storeEngine c n (UpdateKey.sampleRate.storeEngine c n e) =
      UpdateKey.sampleRate.storeEngine c n e := by
  by_cases zero : n = 0#24
  · simp only [UpdateKey.storeEngine, if_pos zero]
  · simp only [UpdateKey.storeEngine, if_neg zero, EngineState.withRate]

/-! ### Writes of different keys commute -/

theorem VoiceField.store_comm {f g : VoiceField} (h : f ≠ g) (m n : Operand) (r : VoiceRegs) :
    f.store n (g.store m r) = g.store m (f.store n r) := by
  cases f <;> cases g <;> first | exact absurd rfl h | rfl

theorem GlobalField.store_comm {f g : GlobalField} (h : f ≠ g) (m n : Operand) (p : Params) :
    f.store n (g.store m p) = g.store m (f.store n p) := by
  cases f <;> cases g <;> first | exact absurd rfl h | rfl

@[simp] theorem setRegs_setRegs (p : Params) (r q : VoiceRegs) (id : VoiceId) :
    (p.setRegs r id).setRegs q id = p.setRegs q id := by
  cases id <;> rfl

theorem setRegs_comm (p : Params) (r q : VoiceRegs) {id other : VoiceId} (h : other ≠ id) :
    (p.setRegs r id).setRegs q other = (p.setRegs q other).setRegs r id := by
  cases id <;> cases other <;> first | exact absurd rfl h | rfl

theorem GlobalField.store_setRegs (g : GlobalField) (n : Operand) (p : Params) (r : VoiceRegs) (id : VoiceId) :
    g.store n (p.setRegs r id) = (g.store n p).setRegs r id := by
  cases g <;> cases id <;> rfl

@[simp] theorem GlobalField.regs_store (g : GlobalField) (n : Operand) (p : Params) (id : VoiceId) :
    (g.store n p).regs id = p.regs id := by
  cases g <;> cases id <;> rfl

theorem UpdateKey.storeParams_comm {k l : UpdateKey} (h : k ≠ l) (m n : Operand) (p : Params) :
    k.storeParams n (l.storeParams m p) = l.storeParams m (k.storeParams n p) := by
  cases k with
  | sampleRate => rfl
  | voice f id =>
    cases l with
    | sampleRate => rfl
    | global g => simp [storeParams, GlobalField.store_setRegs]
    | voice g other =>
      by_cases same : id = other
      · subst same
        have fields : f ≠ g := fun same => h (congrArg (UpdateKey.voice · id) same)
        simp [storeParams, VoiceField.store_comm fields]
      · simp [storeParams, regs_setRegs_ne _ _ same, regs_setRegs_ne _ _ (Ne.symm same), setRegs_comm _ _ _ same]
  | global f =>
    cases l with
    | sampleRate => rfl
    | voice g id => simp [storeParams, GlobalField.store_setRegs]
    | global g => exact GlobalField.store_comm (fun same => h (congrArg _ same)) m n p

theorem UpdateKey.storeEngine_comm {k l : UpdateKey} (h : k ≠ l) (c : Config) (m n : Operand) (e : EngineState) :
    k.storeEngine c n (l.storeEngine c m e) = l.storeEngine c m (k.storeEngine c n e) := by
  cases k with
  | sampleRate =>
    cases l with
    | sampleRate => exact absurd rfl h
    | _ => rfl
  | _ => rfl

theorem Assignment.apply_comm {a b : Assignment} (h : a.1 ≠ b.1) (s : State) :
    apply (apply s a) b = apply (apply s b) a := by
  simp only [apply, UpdateKey.storeParams_comm h, UpdateKey.storeEngine_comm h]

/-! ### A run over a stream of writes -/

theorem Assignment.apply_fault {a : Assignment} (h : a ≠ (.sampleRate, 0#24)) (s : State) :
    (apply s a).engine.fault = s.engine.fault := by
  obtain ⟨k, n⟩ := a
  cases k with
  | sampleRate =>
    have positive : n ≠ 0#24 := fun zero => h (zero ▸ rfl)
    simp [apply, UpdateKey.storeEngine, positive]
  | _ => rfl

theorem step_word (a : Assignment) {s : State} (h : s.engine.fault = none) (rest : List CmdWord) :
    step { s with stream := a.word :: rest } = .next { Assignment.apply s a with stream := rest } := by
  have applied : exec (decode a.word) { s with stream := rest } = .next { Assignment.apply s a with stream := rest } := by
    rw [decode_word]
    exact exec_write a.1 a.2 _
  simpa only [step, h, fetch] using applied

theorem run_succ_of_next {M : Host.Core} {s t : M.State} (h : M.step s = .next t) (k : Nat) :
    M.run (k + 1) s = M.run k t := by
  rw [Host.Core.run, h]

/-- Writes that set no sample rate of 0 run to the end of the stream and fold over the state. -/
theorem run_words {as : List Assignment} (valid : ∀ a ∈ as, a ≠ (.sampleRate, 0#24)) {s : State}
    (h : s.engine.fault = none) :
    core.run as.length { s with stream := as.map Assignment.word } =
      .next { as.foldl Assignment.apply s with stream := [] } := by
  induction as generalizing s with
  | nil => rfl
  | cons a as ih =>
    obtain ⟨valid_head, valid_tail⟩ := List.forall_mem_cons.mp valid
    have rest := ih valid_tail ((Assignment.apply_fault valid_head s).trans h)
    exact (run_succ_of_next (M := core) (step_word a h _) _).trans rest

/-! ### The assignments of an update -/

def Update.assignments (u : Update) : List Assignment :=
  updateKeys.flatMap fun k => (u.value k).toList.map (k, ·)

theorem Update.mem_assignments {u : Update} {a : Assignment} : a ∈ u.assignments ↔ u.value a.1 = some a.2 := by
  obtain ⟨k, n⟩ := a
  simp [assignments, mem_updateKeys]

theorem Update.map_encode_expand (u : Update) : u.expand.map encode = u.assignments.map Assignment.word := by
  have entry (k : UpdateKey) : (writeOf k (u.value k)).map encode = ((u.value k).toList.map (k, ·)).map Assignment.word := by
    cases u.value k <;> rfl
  simp only [expand, assignments, List.map_flatMap, entry]

/-- An update holds one value for a key, so two of its assignments commute: they are the same, or of different keys. -/
theorem Update.apply_comm {u : Update} {a b : Assignment} (ha : a ∈ u.assignments) (hb : b ∈ u.assignments) (s : State) :
    Assignment.apply (Assignment.apply s a) b = Assignment.apply (Assignment.apply s b) a := by
  by_cases key : a.1 = b.1
  · have value : some a.2 = some b.2 := by rw [← mem_assignments.mp ha, ← mem_assignments.mp hb, key]
    rw [Prod.ext key (Option.some.inj value)]
  · exact Assignment.apply_comm key s

/-! ### The obligations -/

/-- Settles O16: a write replaces its register whole, and SET_SR the constants of the rate or the fault record. -/
theorem repeatedCommandIsIdempotent : Obligations.RepeatedCommandIsIdempotent := by
  intro i s t not_tick h
  cases i with
  | tick n => exact absurd rfl (not_tick n)
  | setSr n =>
    have answer (s : State) : exec (.setSr n) s = .next (Assignment.apply s (.sampleRate, n)) := exec_write .sampleRate n s
    cases (answer s).symm.trans h
    simp only [answer, Assignment.apply, storeEngine_sampleRate_idem, UpdateKey.storeParams]
  | _ =>
    cases h
    rfl

/-- Settles O17: the stream is some order of the words of the update's assignments, and these commute. -/
theorem updateOrderHasNoEffect : Obligations.UpdateOrderHasNoEffect := by
  intro u ws s rate h perm
  rw [u.map_encode_expand] at perm ⊢
  obtain ⟨as, rfl, order⟩ := (congrFun₂ (List.eq_map_comp_perm Assignment.word) ws u.assignments).mpr perm
  have valid : ∀ a ∈ u.assignments, a ≠ (.sampleRate, 0#24) := by
    rintro a mem rfl
    exact rate (Update.mem_assignments.mp mem)
  have same_fold : as.foldl Assignment.apply s = u.assignments.foldl Assignment.apply s :=
    order.foldl_eq' (fun a ha b hb => Update.apply_comm (order.subset ha) (order.subset hb)) s
  have ordered := run_words valid h
  have permuted := run_words (fun a mem => valid a (order.subset mem)) h
  rw [← order.length_eq] at ordered
  rw [same_fold] at permuted
  rw [List.length_map]
  exact ⟨_, permuted, ordered, rfl⟩

end Sys2Proof.Machine
end

section
/-!
PROOFS. The encoding and a step's command (30_encoding.md R81 to R87, R91). A property of the decoder is stated of
`decodeKey` and proved by `key_cases`, on the keys R83 lists and on an unlisted one; a word is `wordOf` of its two fields.
-/

namespace Sys2Proof

open Sys2Proof.Machine

/-! ### What a key decodes to -/

theorem decodeKey_wf (key : Key) (n : Operand) : (decodeKey key n).wf = true := by
  induction key using key_cases with
  | listed k listed => fin_cases listed <;> rfl
  | unlisted unlisted => rw [decodeKey_unlisted key n unlisted, Instr.wf, unlisted, Bool.not_false]

theorem encode_decodeKey (key : Key) (n : Operand) : encode (decodeKey key n) = wordOf key n := by
  induction key using key_cases with
  | listed k listed => fin_cases listed <;> rfl
  | unlisted unlisted => rw [decodeKey_unlisted key n unlisted, encode]

theorem mnemonic_decodeKey (key : Key) (m n : Operand) : (decodeKey key m).mnemonic = (decodeKey key n).mnemonic := by
  induction key using key_cases with
  | listed k listed => fin_cases listed <;> rfl
  | unlisted unlisted => rw [decodeKey_unlisted key m unlisted, decodeKey_unlisted key n unlisted, Instr.mnemonic, Instr.mnemonic]

theorem toNat_keyOf (w : CmdWord) : (keyOf w).toNat = w.toNat / 2 ^ 24 := by
  have bound : w.toNat / 2 ^ 24 < 2 ^ 8 := Nat.div_lt_of_lt_mul w.isLt
  rw [keyOf, BitVec.extractLsb'_toNat, Nat.shiftRight_eq_div_pow, Nat.mod_eq_of_lt bound]

/-- The ranges of keys that R86 gives to NOP. -/
def InNopRange (key : Key) : Prop :=
  key.toNat ≤ 0x0F ∨ (0x15 ≤ key.toNat ∧ key.toNat ≤ 0x1F) ∨ (0x25 ≤ key.toNat ∧ key.toNat ≤ 0x2F) ∨
  (0x35 ≤ key.toNat ∧ key.toNat ≤ 0x3F) ∨ (0x44 ≤ key.toNat ∧ key.toNat ≤ 0x4F) ∨
  (0x51 ≤ key.toNat ∧ key.toNat ≤ 0x7F) ∨ 0x81 ≤ key.toNat

theorem unlisted_of_inNopRange {key : Key} (range : InNopRange key) : listedKeys.contains key = false := by
  have outside : ∀ k ∈ listedKeys, ¬ InNopRange k := by
    unfold InNopRange
    decide
  refine Bool.eq_false_iff.mpr fun listed => ?_
  exact outside key (List.contains_iff_mem.mp listed) range

/-! ### What a command and a step answer -/

theorem exec_answers (i : Instr) (s : State) : ∃ t, exec i s = .next t := by
  cases i with
  | tick n =>
    cases init : s.engine.init with
    | true => exact ⟨_, if_pos init⟩
    | false => exact ⟨_, if_neg (ne_true_of_eq_false init)⟩
  | setSr n =>
    by_cases zero : n = 0#24
    · exact ⟨_, if_pos zero⟩
    · exact ⟨_, if_neg zero⟩
  | _ => exact ⟨_, rfl⟩

theorem exec_stream {i : Instr} {s t : State} (h : exec i s = .next t) : t.stream = s.stream := by
  rcases exec_cases h with ⟨-, p, rfl⟩ | ⟨n, -, -, rfl⟩ | ⟨n, -, -, rfl⟩ | ⟨n, -, -, rfl⟩ | ⟨n, -, -, rfl⟩ <;> rfl

theorem step_cons {s : State} {w : CmdWord} {rest : List CmdWord} (running : s.engine.fault = none)
    (head : s.stream = w :: rest) : step s = exec (decode w) { s with stream := rest } := by
  simp only [step, fetch, running, head]

/-! ### The obligations -/

/-- Settles O2: the command of `w` is that of its KEY and VALUE fields, and these make up `w`. -/
theorem encodeInvertsDecode : Obligations.EncodeInvertsDecode := by
  intro w
  have word : encode (decode w) = w := calc
    encode (decode w) = wordOf (keyOf w) (valueOf w) := encode_decodeKey (keyOf w) (valueOf w)
    _ = w := wordOf_fields w
  exact ⟨decodeKey_wf (keyOf w) (valueOf w), word⟩

/-- Settles O5: equal bits 31 to 24 are equal keys. -/
theorem keyAloneSelectsTheCommand : Obligations.KeyAloneSelectsTheCommand := by
  intro w w' high
  have key : keyOf w = keyOf w' := BitVec.eq_of_toNat_eq (by rw [toNat_keyOf, toNat_keyOf, high])
  rw [decode, decode, key]
  exact mnemonic_decodeKey (keyOf w') (valueOf w) (valueOf w')

/-- Settles O3: `decodeKey` at each key of the map in turn. -/
theorem listedKeysSelectTheirCommands : Obligations.ListedKeysSelectTheirCommands := by
  intro n
  have row (key : Key) : decode (key ++ n) = decodeKey key n := decode_wordOf key n
  refine ⟨fun key unlisted => (row key).trans (decodeKey_unlisted key n unlisted), ?_⟩
  exact ⟨⟨row _, row _, row _⟩, ⟨row _, row _, row _⟩, ⟨row _, row _, row _⟩, ⟨row _, row _, row _⟩,
    ⟨row _, row _, row _⟩, ⟨row _, row _, row _, row _⟩, ⟨row _, row _, row _⟩⟩

/-- Settles O4: no key in the ranges is listed, and NOP answers the state it is given. -/
theorem unlistedKeysAreNop : Obligations.UnlistedKeysAreNop := by
  intro key n s range
  have nop : decode (key ++ n) = .nop key n :=
    (decode_wordOf key n).trans (decodeKey_unlisted key n (unlisted_of_inNopRange range))
  exact ⟨nop, by rw [nop, exec, execNop]⟩

/-- Settles O7: the decoded head answers a next state, and no command writes the stream. -/
theorem stepAppliesTheDecodedCommand : Obligations.StepAppliesTheDecodedCommand := by
  intro s w rest running head
  have applied := step_cons running head
  obtain ⟨t, answer⟩ := exec_answers (decode w) { s with stream := rest }
  exact ⟨applied, t, applied.trans answer, exec_stream answer⟩

/-- Settles O8: every command answers, whichever word it was decoded from. -/
theorem everyWordAnswersANextState : Obligations.EveryWordAnswersANextState :=
  fun w s => exec_answers (decode w) s

end Sys2Proof
end

section
/-!
PROOFS. The parameter writes, SET_SR and NOP (40_parameter_writes.md R102 to R114), and what a TICK reads of the parameter
registers (10_state.md R25, R107). A write's whole next state is `exec_write`, the masked value a remainder. A TICK reads P
through its field accessors alone, so parameter registers with the same fields are interchangeable under it.
-/

namespace Sys2Proof.Machine

/-! ### What the word of a write stores -/

theorem maskTo_eq_ofNat_mod (W : Nat) (n : Operand) : maskTo W n = BitVec.ofNat W (n.toNat % 2 ^ W) := by
  refine BitVec.eq_of_toNat_eq ?_
  rw [maskTo, BitVec.toNat_setWidth, BitVec.toNat_ofNat, Nat.mod_mod]

theorem exec_decode_word (a : Assignment) (s : State) : exec (decode a.word) s = .next (Assignment.apply s a) := by
  rw [decode_word]
  exact exec_write a.1 a.2 s

theorem exec_decode_fq (id : VoiceId) (n : Operand) (s : State) :
    exec (decode (Assignment.word (.voice .fq id, n))) s =
      .next (setParams (s.params.setRegs { s.params.regs id with fq := BitVec.ofNat 16 (n.toNat % 2 ^ 16) } id) s) := by
  rw [← maskTo_eq_ofNat_mod]
  exact exec_decode_word (.voice .fq id, n) s

theorem exec_decode_pw (id : VoiceId) (n : Operand) (s : State) :
    exec (decode (Assignment.word (.voice .pw id, n))) s =
      .next (setParams (s.params.setRegs { s.params.regs id with pw := BitVec.ofNat 12 (n.toNat % 2 ^ 12) } id) s) := by
  rw [← maskTo_eq_ofNat_mod]
  exact exec_decode_word (.voice .pw id, n) s

/-! ### The accumulator under a frequency of 0 (R102, 42_oscillator.md R161, R162) -/

theorem oscTick_acc (c : Config) (r : VoiceRegs) (ratio : Nat) (id : VoiceId) (vs : Voices) :
    ((oscTick c r ratio id vs).get id).acc =
      nextAcc r (accStep c r ratio) (syncRise (vs.get (syncSource c id))) (vs.get id).acc :=
  congrArg VoiceState.acc (oscTick_own c r ratio id vs)

theorem accStep_of_fq_eq_zero (c : Config) {r : VoiceRegs} (h : r.fq = 0#16) (ratio : Nat) : accStep c r ratio = 0#24 := by
  rw [accStep, stepRaw, h, BitVec.toNat_zero, Nat.zero_mul, Nat.zero_div]

/-- With TEST and SYNC clear the accumulator is advanced, whatever the sync source does. -/
theorem nextAcc_of_test_sync_clear {r : VoiceRegs} (test : testBit r = false) (sync : syncBit r = false)
    (step : BitVec 24) (rise : Bool) (acc : BitVec 24) : nextAcc r step rise acc = acc + step := by
  rw [nextAcc, test, sync, Bool.false_and, Bool.or_false, if_neg Bool.false_ne_true]

/-! ### CUT11 and its two parts (10_state.md R25) -/

theorem cut11_toNat (p : Params) : (cut11 p).toNat = p.cutH.toNat * 8 + p.cutL.toNat % 8 := by
  have low : (cutLow p).toNat < 2 ^ 3 := (cutLow p).isLt
  rw [cut11, BitVec.toNat_append, ← Nat.shiftLeft_add_eq_or_of_lt low, Nat.shiftLeft_eq, cutLow_toNat]

theorem cut11_toNat_mod_eight (p : Params) : (cut11 p).toNat % 8 = p.cutL.toNat % 8 := by
  rw [cut11_toNat]
  omega

theorem cut11_toNat_div_eight (p : Params) : (cut11 p).toNat / 8 = p.cutH.toNat := by
  rw [cut11_toNat]
  omega

/-! ### SET_SR (R112, R113) -/

theorem exec_setSr_of_ne_zero {n : Operand} (h : n ≠ 0#24) (s : State) :
    exec (.setSr n) s = .next (setSampleRate n s) := if_neg h

theorem exec_setSr_zero (s : State) :
    exec (.setSr 0#24) s = .next (raiseConfigError .sampleRateNotPositive 0x50000000#32 s) := by
  have word : wordOf 0x50#8 0#24 = 0x50000000#32 := by decide
  rw [exec, execSetSr, if_pos rfl, word]

theorem cutoffRatio_of_unlisted {c : Config} (h : c.cutoffRatio = []) (rate : BitVec 24) :
    cutoffRatio c rate = defaultCutoffRatio rate := by
  rw [cutoffRatio, h, lookupOr]

/-! ### What a TICK reads of the parameter registers (R25, R107) -/

theorem exec_tick_of_init {s : State} (h : s.engine.init = true) (n : Operand) :
    exec (.tick n) s = .next (tickState s) := if_pos h

/-- The parameter registers agree in every field that a rule of TICK reads. -/
structure SameFields (p q : Params) : Prop where
  regs      : p.regs = q.regs
  cutLow    : cutLow p = cutLow q
  cutH      : p.cutH = q.cutH
  resNibble : resNibble p = resNibble q
  route     : routeBit p = routeBit q
  typeVol   : p.typeVol = q.typeVol

section
variable {p q : Params}

theorem SameFields.voicesTick (h : SameFields p q) (c : Config) (ratio : Nat) (vs : Voices) :
    voicesTick c p ratio vs = voicesTick c q ratio vs := by
  simp only [Machine.voicesTick, voiceTick, h.regs]

theorem SameFields.mixVoices (h : SameFields p q) (vs : Voices) : mixVoices p vs = mixVoices q vs := by
  simp only [mixVoices_eq, h.route, voice3Off, h.typeVol]

theorem SameFields.cutoffArgs (h : SameFields p q) (c : Config) (e : EngineState) :
    cutoffArgs c p e = cutoffArgs c q e := by
  rw [Machine.cutoffArgs, h.cutLow, h.cutH, Machine.cutoffArgs]

theorem SameFields.filterTaps (h : SameFields p q) (c : Config) (e : EngineState) (vs : Voices) (f : FilterState) :
    filterTaps c p e vs f = filterTaps c q e vs f := by
  rw [Machine.filterTaps, h.mixVoices, h.cutoffArgs, h.resNibble, Machine.filterTaps]

theorem SameFields.nextFilter (h : SameFields p q) (c : Config) (e : EngineState) (vs : Voices) (f : FilterState) :
    nextFilter c p e vs f = nextFilter c q e vs f := by
  rw [Machine.nextFilter, h.filterTaps, Machine.nextFilter]

/-- The mode bits are fields of the one byte `typeVol`. -/
theorem modeSum_congr (h : p.typeVol = q.typeVol) (t : FilterTaps) (bus : F64) : modeSum p t bus = modeSum q t bus := by
  cases p
  cases q
  cases h
  rfl

theorem normalise_congr (h : p.typeVol = q.typeVol) (c : Config) (bus : F64) : normalise c p bus = normalise c q bus := by
  rw [normalise, volume, h, normalise, volume]

theorem SameFields.mixSample (h : SameFields p q) (c : Config) (e : EngineState) (vs : Voices) (f : FilterState) :
    mixSample c p e vs f = mixSample c q e vs f := by
  rw [Machine.mixSample, h.filterTaps, h.mixVoices, modeSum_congr h.typeVol, normalise_congr h.typeVol, Machine.mixSample]

/-- Registers with the same fields may be put in place before a TICK or after it. -/
theorem tickState_setParams {s : State} (h : SameFields q s.params) :
    tickState (setParams q s) = setParams q (tickState s) := by
  simp only [tickState, setParams, emit, h.voicesTick, h.nextFilter, h.mixSample]

theorem exec_tick_setParams {s : State} (h : SameFields q s.params) (init : s.engine.init = true) (n : Operand) :
    exec (.tick n) (setParams q s) = .next (setParams q (tickState s)) := by
  rw [← tickState_setParams h]
  exact exec_tick_of_init (s := setParams q s) init n

end

/-- Bits 7 to 3 of cutoff-low (R107) and bit 3 of the route byte (R25) lie in no field. -/
theorem sameFields_of_ignored_bits {p : Params} {l r : BitVec 8} (low : l.toNat % 8 = p.cutL.toNat % 8)
    (bits : ∀ k, k ≠ 3 → r.getLsbD k = p.res.getLsbD k) : SameFields { p with cutL := l, res := r } p where
  regs := by
    funext id
    cases id <;> rfl
  cutLow := BitVec.eq_of_toNat_eq (by rw [cutLow_toNat, cutLow_toNat, low])
  cutH := rfl
  resNibble := by
    refine BitVec.eq_of_getLsbD_eq fun k _ => ?_
    have above : 4 + k ≠ 3 := by omega
    rw [resNibble, resNibble, BitVec.getLsbD_extractLsb', BitVec.getLsbD_extractLsb', bits _ above]
  route := by
    funext id
    cases id with
    | v1 => exact bits 0 (by decide)
    | v2 => exact bits 1 (by decide)
    | v3 => exact bits 2 (by decide)
  typeVol := rfl

/-! ### The obligations -/

/-- Settles O26: the two states have the same fields, so their ticks differ in the parameter registers alone. -/
theorem ignoredRegisterBitsFeedNoSample : Obligations.IgnoredRegisterBitsFeedNoSample := by
  intro n s l r init low bits
  have same := sameFields_of_ignored_bits low bits
  exact ⟨_, _, exec_tick_of_init init n, exec_tick_setParams same init n, rfl, rfl, rfl, rfl⟩

/-- Settles O10: the write of `fq` for each voice; a step of 0 leaves the accumulator; the example is one of the writes. -/
theorem frequencyWriteStoresLow16Bits : Obligations.FrequencyWriteStoresLow16Bits := by
  refine ⟨fun n s => ⟨exec_decode_fq .v1 n s, exec_decode_fq .v2 n s, exec_decode_fq .v3 n s⟩, ?_, fun s => ?_⟩
  · intro c r ratio id vs fq test sync
    rw [oscTick_acc, nextAcc_of_test_sync_clear test sync, accStep_of_fq_eq_zero c fq, BitVec.add_zero]
  · exact ⟨_, exec_decode_fq .v1 0x11000#24 s, rfl⟩

/-- Settles O11: the write of `pw` for each voice, the example among them. -/
theorem pulseWidthWriteStoresLow12Bits : Obligations.PulseWidthWriteStoresLow12Bits :=
  ⟨fun n s => ⟨exec_decode_pw .v1 n s, exec_decode_pw .v2 n s, exec_decode_pw .v3 n s⟩,
    fun s => ⟨_, exec_decode_pw .v2 0x1800#24 s, rfl⟩⟩

/-- Settles O13: the four writes, and the fields of the examples read off the stored byte. -/
theorem globalWritesStoreLow8Bits : Obligations.GlobalWritesStoreLow8Bits := by
  have write (g : GlobalField) (n : Operand) (s : State) :
      exec (decode (Assignment.word (.global g, n))) s = .next (setParams (g.store n s.params) s) :=
    exec_decode_word (.global g, n) s
  refine ⟨fun n s => ?_, fun s => ⟨?_, ?_, ?_, ?_⟩⟩
  · rw [← maskTo_eq_ofNat_mod]
    exact ⟨write .cutL n s, write .cutH n s, write .res n s, write .typeVol n s⟩
  · have stored : (GlobalField.cutL.store 0xFF#24 s.params).cutL = 0xFF#8 := rfl
    exact ⟨_, write .cutL 0xFF#24 s, by rw [setParams_params, cut11_toNat_mod_eight, stored]; rfl⟩
  · have stored : (GlobalField.cutH.store 0x80#24 s.params).cutH = 0x80#8 := rfl
    exact ⟨_, write .cutH 0x80#24 s, by rw [setParams_params, cut11_toNat_div_eight, stored]; rfl⟩
  · have stored : (GlobalField.res.store 0xF7#24 s.params).res = 0xF7#8 := rfl
    refine ⟨_, write .res 0xF7#24 s, by simp [resNibble, stored], fun id => ?_⟩
    cases id <;> simp [routeBit, stored]
  · have stored : (GlobalField.typeVol.store 0x1F#24 s.params).typeVol = 0x1F#8 := rfl
    refine ⟨_, write .typeVol 0x1F#24 s, ?_⟩
    simp [volume, lpBit, bpBit, hpBit, stored]

/-- Settles O14: NOP answers the state it is given, under any key. -/
theorem nopChangesNothing : Obligations.NopChangesNothing :=
  ⟨fun key n s => by rw [exec, execNop], decode_wordOf 0x00#8 0x000000#24, decode_wordOf 0xFF#8 0x123456#24⟩

/-- Settles O18: SET_SR writes `EngineState.withRate`, and a rate that KC does not list has the default constants. -/
theorem setSrRecomputesTheConstants : Obligations.SetSrRecomputesTheConstants := by
  intro n s positive
  refine ⟨exec_setSr_of_ne_zero positive s, fun unlisted => ?_⟩
  simp only [cutoffRatio_of_unlisted unlisted, defaultCutoffRatio, ratioNumerator, and_self]

/-- Settles O19: a rate of 0 is recorded as the fault, with the word of SET_SR 0. -/
theorem setSrZeroRecordsTheError : Obligations.SetSrZeroRecordsTheError :=
  fun s => ⟨exec_setSr_zero s, rfl⟩

end Sys2Proof.Machine
end

section
/-!
PROOFS. The envelope tick (41_envelope.md R130 to R147): an equation for each case of each sub-step, under the conditions
in which the rules state it, and the collected pseudocode of R147 cut into the same sub-steps.
-/

namespace Sys2Proof.Machine

/-! ### The register nibbles as numbers (10_state.md R23) -/

theorem attackNibble_toNat (r : VoiceRegs) : (attackNibble r).toNat = r.ad.toNat / 16 := high_nibble_toNat r.ad

theorem decayNibble_toNat (r : VoiceRegs) : (decayNibble r).toNat = r.ad.toNat % 16 := low_nibble_toNat r.ad

theorem sustainNibble_toNat (r : VoiceRegs) : (sustainNibble r).toNat = r.sr.toNat / 16 := high_nibble_toNat r.sr

theorem releaseNibble_toNat (r : VoiceRegs) : (releaseNibble r).toNat = r.sr.toNat % 16 := low_nibble_toNat r.sr

/-! ### The period tables (R134, R135) -/

/-- What holds of every default value and of every listed one holds of every value of a parameter. -/
theorem lookupOr_forall {α β : Type} [DecidableEq α] {P : β → Prop} {dflt : α → β} {l : List (α × β)}
    (default : ∀ a, P (dflt a)) (listed : ∀ e ∈ l, P e.2) (a : α) : P (lookupOr dflt l a) := by
  rcases lookupOr_cases dflt l a with h | ⟨e, mem, h⟩
  · exact h ▸ default a
  · exact h ▸ listed e mem

theorem listedPeriods_of_configWf {c : Config} (h : configWf c = true) :
    (∀ e ∈ c.ratePeriod, 1 ≤ e.2 ∧ e.2 ≤ 0x7FFF) ∧ ∀ e ∈ c.expPeriod, 1 ≤ e.2 ∧ e.2 ≤ 255 := by
  simp only [configWf, Bool.and_eq_true, List.all_eq_true, decide_eq_true_eq] at h
  obtain ⟨⟨⟨⟨⟨⟨-, rates⟩, prescalers⟩, -⟩, -⟩, -⟩, -⟩ := h
  exact ⟨rates, prescalers⟩

theorem ratePeriod_range {c : Config} (h : configWf c = true) (idx : BitVec 4) :
    1 ≤ ratePeriod c idx ∧ ratePeriod c idx ≤ 0x7FFF :=
  lookupOr_forall (P := fun n => 1 ≤ n ∧ n ≤ 0x7FFF) (by decide) (listedPeriods_of_configWf h).1 idx

theorem defaultExpPeriod_range (level : BitVec 8) : 1 ≤ defaultExpPeriod level ∧ defaultExpPeriod level ≤ 255 := by
  unfold defaultExpPeriod
  split_ifs <;> decide

theorem expPeriod_range {c : Config} (h : configWf c = true) (level : BitVec 8) :
    1 ≤ expPeriod c level ∧ expPeriod c level ≤ 255 :=
  lookupOr_forall (P := fun n => 1 ≤ n ∧ n ≤ 255) defaultExpPeriod_range (listedPeriods_of_configWf h).2 level

theorem periodFx_pos {c : Config} (h : configWf c = true) (idx : BitVec 4) : 0 < periodFx c idx :=
  Nat.mul_pos (ratePeriod_range h idx).1 (Nat.two_pow_pos _)

/-! ### Effective period and step (R136) -/

theorem effPeriod_of_le {pfx ratio : Nat} (h : ratio ≤ pfx) : effPeriod pfx ratio = pfx := if_pos h

theorem effPeriod_of_lt {pfx ratio : Nat} (h : pfx < ratio) : effPeriod pfx ratio = ratio := if_neg (Nat.not_le_of_lt h)

theorem envStep_of_le {pfx ratio : Nat} (h : ratio ≤ pfx) : envStep pfx ratio = 1 := if_pos h

theorem envStep_of_lt {pfx ratio : Nat} (h : pfx < ratio) : envStep pfx ratio = ratio ⌈/⌉ pfx :=
  if_neg (Nat.not_le_of_lt h)

/-! ### The gate edge and the skipped check (R131, R132) -/

section
variable {r : VoiceRegs} {v : VoiceState}

theorem gateEdge_of_rising (bit : gateBit r = true) (prev : v.prevGate = false) :
    gateEdge r v = { v with gateF := true, attackF := true, dsF := true, holdzeroF := false, prevGate := true } := by
  rcases gateEdge_cases r v with ⟨-, -, rises⟩ | ⟨low, -, -⟩ | ⟨same, -⟩
  · exact rises
  · simp [bit] at low
  · simp [bit, prev] at same

theorem gateEdge_of_falling (bit : gateBit r = false) (prev : v.prevGate = true) :
    gateEdge r v = { v with gateF := false, attackF := false, dsF := false, prevGate := false } := by
  rcases gateEdge_cases r v with ⟨high, -, -⟩ | ⟨-, -, falls⟩ | ⟨same, -⟩
  · simp [bit] at high
  · exact falls
  · simp [bit, prev] at same

theorem gateEdge_of_same (same : gateBit r = v.prevGate) : gateEdge r v = v := by
  rcases gateEdge_cases r v with ⟨bit, prev, -⟩ | ⟨bit, prev, -⟩ | ⟨-, kept⟩
  · simp [bit, prev] at same
  · simp [bit, prev] at same
  · exact kept

/-- An edge writes the flags and `prev_gate` alone; these are the fields that the later sub-steps read. -/
theorem gateEdge_frame (r : VoiceRegs) (v : VoiceState) :
    (gateEdge r v).env = v.env ∧ (gateEdge r v).rc = v.rc ∧ (gateEdge r v).expcnt = v.expcnt ∧
    (gateEdge r v).prevSr = v.prevSr := by
  rcases gateEdge_cases r v with ⟨-, -, e⟩ | ⟨-, -, e⟩ | ⟨-, e⟩ <;> rw [e] <;> exact ⟨rfl, rfl, rfl, rfl⟩

theorem skipsCheck_eq (r : VoiceRegs) (v : VoiceState) :
    skipsCheck r v = (gateBit r && !v.prevGate && decide (v.prevSr.toNat % 16 < r.sr.toNat % 16)) := by
  rw [skipsCheck, gateRises, low_nibble_toNat, releaseNibble_toNat]

theorem skipsCheck_iff :
    skipsCheck r v = true ↔ gateBit r = true ∧ v.prevGate = false ∧ v.prevSr.toNat % 16 < r.sr.toNat % 16 := by
  simp [skipsCheck_eq, and_assoc]

/-! ### The rate index (R133) -/

theorem rateIndex_of_attack (r : VoiceRegs) (h : v.attackF = true) : rateIndex r v = attackNibble r := if_pos h

theorem rateIndex_of_decaySustain (r : VoiceRegs) (attack : v.attackF = false) (ds : v.dsF = true) :
    rateIndex r v = decayNibble r := by
  simp [rateIndex, attack, ds]

theorem rateIndex_of_release (r : VoiceRegs) (attack : v.attackF = false) (ds : v.dsF = false) :
    rateIndex r v = releaseNibble r := by
  simp [rateIndex, attack, ds]

/-! ### The step logic (R140 to R145) -/

theorem envUp_toNat (step : Nat) (env : BitVec 8) : (envUp step env).toNat = min 255 (env.toNat + step) := by
  rw [envUp, BitVec.toNat_ofNat, Nat.mod_eq_of_lt (by omega)]

theorem envDown_toNat (step : Nat) (env : BitVec 8) : (envDown step env).toNat = env.toNat - step := by
  have := env.isLt
  rw [envDown, BitVec.toNat_ofNat, Nat.mod_eq_of_lt (by omega)]

theorem attackAfter_eq (env : BitVec 8) : attackAfter env = decide (env.toNat ≠ 255) := by
  simp [attackAfter, BitVec.toNat_eq]

theorem holdzeroAfter_false (before after : BitVec 8) :
    holdzeroAfter before after false = decide (0 < before.toNat ∧ after.toNat = 0) := by
  simp [holdzeroAfter, BitVec.toNat_eq, Nat.pos_iff_ne_zero, Bool.decide_and]

theorem decrements_eq (r : VoiceRegs) (v : VoiceState) :
    decrements r v = (!v.dsF || decide (r.sr.toNat / 16 * 17 < v.env.toNat)) := by
  rw [decrements, sustainNibble_toNat]

theorem decrements_iff : decrements r v = true ↔ v.dsF = false ∨ r.sr.toNat / 16 * 17 < v.env.toNat := by
  simp [decrements_eq]

theorem stepLogic_of_holdzero (r : VoiceRegs) (step : Nat) (hold : v.holdzeroF = true) : stepLogic r step v = v :=
  if_pos hold

section
variable (hold : v.holdzeroF = false)
include hold

theorem stepLogic_of_attack (r : VoiceRegs) (step : Nat) (attack : v.attackF = true) :
    stepLogic r step v = { v with
      env := envUp step v.env, attackF := decide ((envUp step v.env).toNat ≠ 255) } := by
  rw [← attackAfter_eq]
  simp [stepLogic, hold, attack]

theorem stepLogic_of_decrements (step : Nat) (attack : v.attackF = false) (dec : decrements r v = true) :
    stepLogic r step v = { v with
      env := envDown step v.env
      holdzeroF := decide (0 < v.env.toNat ∧ (envDown step v.env).toNat = 0) } := by
  rw [← holdzeroAfter_false]
  simp [stepLogic, hold, attack, dec]

theorem stepLogic_of_not_decrements (step : Nat) (attack : v.attackF = false) (dec : decrements r v = false) :
    stepLogic r step v = v := by
  simp [stepLogic, hold, attack, dec]

end

/-! ### A crossing and the prescaler (R139) -/

theorem expcnt_succ_toNat (n : BitVec 8) : (n + 1#8).toNat = (n.toNat + 1) % 256 := BitVec.toNat_add n 1#8

theorem crossed_of_attack (c : Config) (r : VoiceRegs) (eff step : Nat) (attack : v.attackF = true) :
    crossed c r eff step v = { stepLogic r step { v with rc := v.rc - eff } with expcnt := 0#8 } := if_pos attack

section
variable {c : Config} {count : Nat} (r : VoiceRegs) (eff step : Nat) (attack : v.attackF = false)
  (counts : (v.expcnt.toNat + 1) % 256 = count)
include attack counts

theorem crossed_of_count_reached (reached : expPeriod c v.env ≤ count) :
    crossed c r eff step v = { stepLogic r step { v with rc := v.rc - eff } with expcnt := 0#8 } := by
  rw [← counts, ← expcnt_succ_toNat] at reached
  rw [crossed, attack, if_neg Bool.false_ne_true, if_pos reached]

theorem crossed_of_count_below (below : count < expPeriod c v.env) :
    crossed c r eff step v = { v with rc := v.rc - eff, expcnt := BitVec.ofNat 8 count } := by
  rw [← counts, ← expcnt_succ_toNat] at below ⊢
  rw [crossed, attack, if_neg Bool.false_ne_true, if_neg (Nat.not_le_of_lt below), BitVec.ofNat_toNat,
    BitVec.setWidth_eq]

end

/-! ### The whole tick (R130, R137, R138) -/

/-- `pfx` of a tick, by the rate index that the flags select after the gate edge. -/
def tickPeriod (c : Config) (r : VoiceRegs) (v : VoiceState) : Nat := periodFx c (rateIndex r (gateEdge r v))

/-- The tick's advanced counter lies in the crossing window, and the check is not skipped (R138). -/
def TickCrosses (c : Config) (r : VoiceRegs) (ratio : Nat) (v : VoiceState) : Prop :=
  skipsCheck r v = false ∧ effPeriod (tickPeriod c r v) ratio ≤ rcAdvance c ratio v.rc ∧
  rcAdvance c ratio v.rc < effPeriod (tickPeriod c r v) ratio + ratio

theorem crosses_eq (skip : Bool) (eff ratio rc : Nat) :
    crosses skip eff ratio rc = (!skip && decide (eff ≤ rc ∧ rc < eff + ratio)) := by
  rw [crosses, Bool.and_assoc, Bool.decide_and]

theorem tickCrosses_iff (c : Config) (r : VoiceRegs) (ratio : Nat) (v : VoiceState) :
    crosses (skipsCheck r v) (effPeriod (tickPeriod c r v) ratio) ratio (rcAdvance c ratio v.rc) = true ↔
      TickCrosses c r ratio v := by
  rw [crosses_eq, Bool.and_eq_true, Bool.not_eq_true', decide_eq_true_eq, TickCrosses]

theorem envTick_of_crosses {c : Config} {ratio : Nat} (h : TickCrosses c r ratio v) :
    envTick c r ratio v = crossed c r (effPeriod (tickPeriod c r v) ratio) (envStep (tickPeriod c r v) ratio)
      (envAdvance c r ratio v) :=
  if_pos ((tickCrosses_iff c r ratio v).mpr h)

theorem envTick_of_not_crosses {c : Config} {ratio : Nat} (h : ¬ TickCrosses c r ratio v) :
    envTick c r ratio v = envAdvance c r ratio v :=
  if_neg fun crossing => h ((tickCrosses_iff c r ratio v).mp crossing)

theorem envTick_of_skipsCheck (c : Config) (ratio : Nat) (skip : skipsCheck r v = true) :
    envTick c r ratio v = envAdvance c r ratio v :=
  envTick_of_not_crosses fun ⟨checked, _⟩ => absurd checked (ne_false_of_eq_true skip)

theorem stepLogic_prevSr (r : VoiceRegs) (step : Nat) (v : VoiceState) : (stepLogic r step v).prevSr = v.prevSr := by
  rcases stepLogic_cases r step v with e | ⟨-, -, e⟩ | ⟨-, -, e⟩ <;> rw [e]

theorem crossed_prevSr (c : Config) (r : VoiceRegs) (eff step : Nat) (v : VoiceState) :
    (crossed c r eff step v).prevSr = v.prevSr := by
  rcases crossed_cases c r eff step v with logic | ⟨-, counts⟩
  · rw [logic]
    exact stepLogic_prevSr r step _
  · rw [counts]

theorem envTick_prevSr (c : Config) (r : VoiceRegs) (ratio : Nat) (v : VoiceState) :
    (envTick c r ratio v).prevSr = r.sr := by
  rcases envTick_cases c r ratio v with advance | ⟨eff, step, -, crossing⟩
  · rw [advance]
    rfl
  · rw [crossing, crossed_prevSr]
    rfl

end

/-! ### The collected pseudocode, cut into the sub-steps (R147) -/

/-- The lines of the gate edge. -/
def collectedEdge (r : VoiceRegs) (v : VoiceState) : VoiceState :=
  let g := r.wg.toNat.testBit 0
  let rising := g && !v.prevGate
  let falling := !g && v.prevGate
  let v := if rising then { v with gateF := true, attackF := true, dsF := true, holdzeroF := false } else v
  let v := if falling then { v with gateF := false, attackF := false, dsF := false } else v
  { v with prevGate := g }

/-- The line of `idx`. -/
def collectedIndex (r : VoiceRegs) (v : VoiceState) : Nat :=
  if v.attackF then r.ad.toNat / 16 else if v.dsF then r.ad.toNat % 16 else r.sr.toNat % 16

/-- The line of `step`. -/
def collectedStep (pfx ratio : Nat) : Nat :=
  if ratio ≤ pfx then 1 else if ratio % pfx = 0 then ratio / pfx else ratio / pfx + 1

/-- The lines of the step logic. -/
def collectedLogic (r : VoiceRegs) (step : Nat) (v : VoiceState) : VoiceState :=
  if v.holdzeroF then v
  else if v.attackF then
    let level := min 255 (v.env.toNat + step)
    { v with env := BitVec.ofNat 8 level, attackF := decide (level ≠ 255) }
  else if !v.dsF || decide (r.sr.toNat / 16 * 17 < v.env.toNat) then
    let before := v.env.toNat
    let level := before - step
    { v with env := BitVec.ofNat 8 level, holdzeroF := decide (0 < before ∧ level = 0) }
  else v

/-- The lines under the crossing test. -/
def collectedCrossing (c : Config) (r : VoiceRegs) (eff step : Nat) (v : VoiceState) : VoiceState :=
  let v := { v with rc := v.rc - eff }
  let count := (v.expcnt.toNat + 1) % 256
  let fire := v.attackF || decide (expPeriod c v.env ≤ count)
  let v := if v.attackF then v else { v with expcnt := BitVec.ofNat 8 count }
  if fire then
    let v := collectedLogic r step v
    { v with expcnt := 0#8 }
  else v

/-- The pseudocode runs these parts in order; the lines left between them are the staged tick's own. -/
theorem envTickCollected_eq (c : Config) (r : VoiceRegs) (ratio : Nat) (v : VoiceState) :
    envTickCollected c r ratio v =
      let e := collectedEdge r v
      let w := { e with prevSr := r.sr, rc := rcAdvance c ratio e.rc }
      let pfx := periodFx c (BitVec.ofNat 4 (collectedIndex r w))
      let skip := gateBit r && !v.prevGate && decide (e.prevSr.toNat % 16 < r.sr.toNat % 16)
      if !skip && decide (effPeriod pfx ratio ≤ w.rc ∧ w.rc < effPeriod pfx ratio + ratio) then
        collectedCrossing c r (effPeriod pfx ratio) (collectedStep pfx ratio) w
      else w := by rfl

theorem collectedEdge_eq (r : VoiceRegs) (v : VoiceState) : collectedEdge r v = gateEdge r v := by
  have bit : r.wg.toNat.testBit 0 = gateBit r := rfl
  cases hg : gateBit r <;> cases hp : v.prevGate <;>
    simp [collectedEdge, bit, gateEdge, gateRises, gateFalls, hg, hp]

theorem collectedIndex_eq (r : VoiceRegs) (v : VoiceState) : BitVec.ofNat 4 (collectedIndex r v) = rateIndex r v := by
  rw [collectedIndex, ← attackNibble_toNat, ← decayNibble_toNat, ← releaseNibble_toNat, rateIndex]
  split_ifs <;> exact BitVec.eq_of_toNat_eq (by simp)

theorem collectedStep_eq {pfx : Nat} (pos : 0 < pfx) (ratio : Nat) : collectedStep pfx ratio = envStep pfx ratio := by
  have divided : ratio / pfx * pfx + ratio % pfx = ratio := Nat.div_add_mod' ratio pfx
  have small : ratio % pfx < pfx := Nat.mod_lt ratio pos
  have up : (ratio / pfx + 1) * pfx = ratio / pfx * pfx + pfx := Nat.succ_mul _ _
  unfold collectedStep envStep
  split_ifs
  · rfl
  · refine (Nat.div_eq_of_lt_le ?_ ?_).symm <;> omega
  · refine (Nat.div_eq_of_lt_le ?_ ?_).symm
    · omega
    · rw [Nat.succ_mul]
      omega

theorem collectedLogic_eq (r : VoiceRegs) (step : Nat) (v : VoiceState) :
    collectedLogic r step v = stepLogic r step v := by
  rw [collectedLogic, ← decrements_eq]
  cases hold : v.holdzeroF with
  | true => rw [stepLogic_of_holdzero r step hold, if_pos rfl]
  | false =>
    cases attack : v.attackF with
    | true =>
      rw [stepLogic_of_attack hold r step attack, envUp_toNat]
      simp [envUp, hold]
    | false =>
      cases dec : decrements r v with
      | true =>
        rw [stepLogic_of_decrements hold step attack dec, envDown_toNat]
        simp [envDown, attack]
      | false =>
        rw [stepLogic_of_not_decrements hold step attack dec]
        simp

/-- The voice with the prescaler's count `n`. -/
def setExpcnt (n : BitVec 8) (v : VoiceState) : VoiceState := { v with expcnt := n }

/-- The step logic neither reads nor writes the prescaler. -/
theorem stepLogic_setExpcnt (r : VoiceRegs) (step : Nat) (n : BitVec 8) (v : VoiceState) :
    stepLogic r step (setExpcnt n v) = setExpcnt n (stepLogic r step v) := by
  simp only [stepLogic, apply_ite (setExpcnt n)]
  rfl

theorem collectedCrossing_eq (c : Config) (r : VoiceRegs) (eff step : Nat) (v : VoiceState) :
    collectedCrossing c r eff step v = crossed c r eff step v := by
  cases attack : v.attackF with
  | true =>
    rw [crossed_of_attack c r eff step attack]
    simp [collectedCrossing, attack, collectedLogic_eq]
  | false =>
    rcases Nat.lt_or_ge ((v.expcnt.toNat + 1) % 256) (expPeriod c v.env) with below | reached
    · rw [crossed_of_count_below r eff step attack rfl below]
      simp [collectedCrossing, attack, Nat.not_le_of_lt below]
    · rw [crossed_of_count_reached r eff step attack rfl reached]
      simp only [collectedCrossing, if_neg (ne_true_of_eq_false attack), decide_eq_true reached, Bool.or_true, if_true,
        collectedLogic_eq]
      have cleared := congrArg (setExpcnt 0#8) (stepLogic_setExpcnt r step
        (BitVec.ofNat 8 ((v.expcnt.toNat + 1) % 256)) { v with rc := v.rc - eff })
      exact cleared

/-! ### The obligations -/

/-- Settles O29: a skipped tick is the advance alone, after a rising edge; no sub-step writes `prev_sr` but R132's. -/
theorem skippedRateCheck : Obligations.SkippedRateCheck := by
  intro c r ratio v
  refine ⟨skipsCheck_iff, fun skip => ?_, envTick_prevSr c r ratio v⟩
  obtain ⟨bit, prev, -⟩ := skipsCheck_iff.mp skip
  rw [envTick_of_skipsCheck c ratio skip, envAdvance, gateEdge_of_rising bit prev, rcAdvance, rcModulus]

/-- Settles O32: the step is the ceiling of `ratio / pfx`, the least multiplier that reaches the ratio. -/
theorem effectivePeriodAndStep : Obligations.EffectivePeriodAndStep := by
  refine ⟨fun _ _ => rfl, fun pfx ratio pos => ⟨fun le => ⟨effPeriod_of_le le, envStep_of_le le⟩, fun lt => ?_⟩⟩
  rw [envStep_of_lt lt]
  have reach : ratio ≤ pfx * (ratio ⌈/⌉ pfx) := le_smul_ceilDiv pos
  have step_pos : 0 < ratio ⌈/⌉ pfx := Nat.pos_of_ne_zero fun zero => by
    rw [zero] at reach
    omega
  refine ⟨effPeriod_of_lt lt, ?_, ?_⟩
  · rwa [Nat.mul_comm]
  · rw [Nat.mul_comm, ← Nat.not_le, ← ceilDiv_le_iff_le_mul pos]
    omega

/-- Settles O33: the two cases of the tick, and of the crossing the three of the prescaler. -/
theorem crossingRunsThePrescaler : Obligations.CrossingRunsThePrescaler := by
  intro c r ratio v rc pfx eff advanced reduced count cross
  obtain ⟨env, -, expcnt, -⟩ := gateEdge_frame r v
  have counts : ((gateEdge r v).expcnt.toNat + 1) % 256 = count := by rw [expcnt]
  refine ⟨fun h => envTick_of_not_crosses h, fun h attack => ?_, fun h attack reached => ?_, fun h attack below => ?_⟩
  · exact (envTick_of_crosses h).trans (crossed_of_attack c r eff _ attack)
  · rw [← env] at reached
    exact (envTick_of_crosses h).trans (crossed_of_count_reached r eff _ attack counts reached)
  · rw [← env] at below
    exact (envTick_of_crosses h).trans (crossed_of_count_below r eff _ attack counts below)

/-- Settles O34: the two cases of the step logic, with the clamped level as the witness. -/
theorem attackStepClampsAndEnds : Obligations.AttackStepClampsAndEnds := by
  intro r step v
  refine ⟨stepLogic_of_holdzero r step, fun hold attack => ?_⟩
  have up := stepLogic_of_attack hold r step attack
  refine ⟨envUp step v.env, envUp_toNat step v.env, up, fun top ds => ?_⟩
  rw [up]
  simp [envPhase, top, ds]

/-- Settles O35: whether the step logic decrements decides; hold-zero is clear before, so the drop to 0 alone sets it. -/
theorem decayAndReleaseStep : Obligations.DecayAndReleaseStep := by
  intro r step v hold attack
  refine ⟨fun ds low => ?_, fun falls => ?_⟩
  · have dec : decrements r v = false := by
      rw [← Bool.not_eq_true, decrements_iff]
      simp [ds, low]
    exact stepLogic_of_not_decrements hold step attack dec
  · exact ⟨envDown step v.env, envDown_toNat step v.env,
      stepLogic_of_decrements hold step attack (decrements_iff.mpr falls)⟩

/-- Settles O37: each part of the pseudocode is the staged sub-step; `ceil` divides by the period, which is positive. -/
theorem envelopeTickIsTheCollectedOne : Obligations.EnvelopeTickIsTheCollectedOne := by
  intro c r ratio v wf
  obtain ⟨-, rc, -, prevSr⟩ := gateEdge_frame r v
  rw [envTickCollected_eq]
  simp only [collectedEdge_eq, collectedIndex_eq, collectedCrossing_eq, collectedStep_eq (periodFx_pos wf _),
    rc, prevSr, ← skipsCheck_eq, ← crosses_eq]
  rfl

/-- Settles O27: the three cases of the gate edge. -/
theorem gateEdgeWritesTheFlags : Obligations.GateEdgeWritesTheFlags :=
  fun _ _ => ⟨gateEdge_of_rising, gateEdge_of_falling, gateEdge_of_same⟩

/-- Settles O30: each case selects a nibble, and the nibble is a quotient or remainder of its register. -/
theorem rateIndexFollowsTheFlags : Obligations.RateIndexFollowsTheFlags := by
  intro r v
  refine ⟨fun attack => ?_, fun attack ds => ?_, fun attack ds => ?_⟩
  · rw [rateIndex_of_attack r attack, attackNibble_toNat]
  · rw [rateIndex_of_decaySustain r attack ds, decayNibble_toNat]
  · rw [rateIndex_of_release r attack ds, releaseNibble_toNat]

/-- Settles O31: the defaults by evaluation and by the runs of levels; a listed entry is in its range under `configWf`. -/
theorem periodTables : Obligations.PeriodTables := by
  refine ⟨fun _ _ => rfl, fun clock nch level => ?_, fun c wf => ⟨ratePeriod_range wf, expPeriod_range wf⟩⟩
  have zero : level = 0#8 ↔ level.toNat = 0 := BitVec.toNat_eq
  have table : expPeriod (defaultConfig clock nch) level = defaultExpPeriod level := rfl
  rw [table, defaultExpPeriod, zero]
  split_ifs <;> omega

end Sys2Proof.Machine
end

section
/-!
PROOFS. The oscillator tick (42_oscillator.md R160 to R188): an equation for each field that it writes, read off the voice
as it stands after the tick; each sub-step as arithmetic on numbers; and the collected pseudocode of R187 cut into the same
sub-steps.
-/

namespace Sys2Proof.Machine

/-! ### The waveform field (10_state.md R22) -/

theorem waveField_toNat (r : VoiceRegs) : (waveField r).toNat = r.wg.toNat / 16 := high_nibble_toNat r.wg

theorem waveField_eq (r : VoiceRegs) : waveField r = BitVec.ofNat 4 (r.wg.toNat / 16) := by
  rw [← waveField_toNat, BitVec.ofNat_toNat, BitVec.setWidth_eq]

theorem waveField_eq_zero_iff (r : VoiceRegs) : waveField r = 0#4 ↔ r.wg.toNat / 16 = 0 := by
  rw [BitVec.toNat_eq, waveField_toNat, BitVec.toNat_zero]

/-! ### The fields that the tick writes (R162, R170, R184, R185) -/

section
variable (c : Config) (r : VoiceRegs) (ratio : Nat) (id : VoiceId) (vs : Voices)

theorem oscTick_prevAcc : ((oscTick c r ratio id vs).get id).prevAcc = (vs.get id).acc :=
  congrArg VoiceState.prevAcc (oscTick_own c r ratio id vs)

theorem oscTick_lfsr :
    let w := (oscTick c r ratio id vs).get id
    w.lfsr = if noiseClocked c (stepRaw c r ratio) w.acc (vs.get id).acc then lfsrClock (vs.get id).lfsr
      else (vs.get id).lfsr := by
  intro w
  rw [oscTick_acc]
  exact congrArg VoiceState.lfsr (oscTick_own c r ratio id vs)

/-- The waveform of a voice is read off its accumulator and noise register, and off its source, after the tick. -/
theorem oscTick_out :
    let ws := oscTick c r ratio id vs
    let w := ws.get id
    w.out = oscWave c r ratio ((ws.get (syncSource c id)).acc.getLsbD 23) { w with prevWf := (vs.get id).prevWf } := by
  intro ws w
  have own : w = _ := oscTick_own c r ratio id vs
  have acc : w.acc = _ := congrArg VoiceState.acc own
  have lfsr : w.lfsr = _ := congrArg VoiceState.lfsr own
  simp only [oscWave, acc, lfsr]
  exact congrArg VoiceState.out own

theorem oscTick_prevWf :
    let w := (oscTick c r ratio id vs).get id
    w.prevWf = if r.wg.toNat / 16 = 0 then (vs.get id).prevWf else w.out := by
  intro w
  have own : w = _ := oscTick_own c r ratio id vs
  have out : w.out = _ := congrArg VoiceState.out own
  simp only [← waveField_eq_zero_iff, out]
  exact congrArg VoiceState.prevWf own

/-- The tick writes no other field of its voice. -/
theorem oscTick_frame :
    let w := (oscTick c r ratio id vs).get id
    w = { vs.get id with acc := w.acc, prevAcc := w.prevAcc, lfsr := w.lfsr, prevWf := w.prevWf, out := w.out } := by
  intro w
  have own : w = _ := oscTick_own c r ratio id vs
  rw [own]
  rfl

theorem oscTick_eq_set : oscTick c r ratio id vs = vs.set ((oscTick c r ratio id vs).get id) id := by
  obtain ⟨y, hy⟩ := oscTick_eq c r ratio id vs
  rw [hy, get_set_self]

theorem oscTick_get_ne {other : VoiceId} (h : other ≠ id) : (oscTick c r ratio id vs).get other = vs.get other := by
  rw [oscTick_eq_set, get_set_ne _ _ h]

end

/-! ### Accumulator (R161, R162, R164) -/

theorem syncRise_iff (u : VoiceState) :
    syncRise u = true ↔ u.acc.getLsbD 23 = true ∧ u.prevAcc.getLsbD 23 = false := by
  simp [syncRise]

theorem nextAcc_eq (r : VoiceRegs) (step : BitVec 24) (rise : Bool) (acc : BitVec 24) :
    nextAcc r step rise acc =
      if r.wg.getLsbD 3 = true ∨ (r.wg.getLsbD 1 = true ∧ rise = true) then 0#24 else acc + step := by
  simp only [nextAcc, testBit, syncBit, Bool.or_eq_true, Bool.and_eq_true]

theorem add_accStep_toNat (c : Config) (r : VoiceRegs) (ratio : Nat) (acc : BitVec 24) :
    (acc + accStep c r ratio).toNat = (acc.toNat + stepRaw c r ratio % 2 ^ 24) % 2 ^ 24 := by
  rw [BitVec.toNat_add, accStep, BitVec.toNat_ofNat]

/-! ### Noise register (R170, R171, R172) -/

theorem noiseClocked_iff (c : Config) (raw : Nat) (acc prevAcc : BitVec 24) :
    noiseClocked c raw acc prevAcc = true ↔ c.noiseStepLimit < raw ∨ acc.getLsbD 20 ≠ prevAcc.getLsbD 20 := by
  simp [noiseClocked]

theorem noiseClocked_of_still (c : Config) (acc : BitVec 24) : noiseClocked c 0 acc acc = false := by
  simp [noiseClocked]

/-- One clock takes the feedback bit in at the bottom and drops the top bit. -/
theorem lfsrClock_eq_concat (l : BitVec 23) :
    lfsrClock l = (l.concat (l.getLsbD 22 ^^ l.getLsbD 17)).setWidth 23 := by
  refine BitVec.eq_of_getLsbD_eq fun k hk => ?_
  rw [BitVec.getLsbD_setWidth, decide_eq_true hk, Bool.true_and]
  cases k with
  | zero => rw [lfsrClock_getLsbD_zero, BitVec.getLsbD_concat_zero]
  | succ k => rw [lfsrClock_getLsbD_succ l (Nat.lt_of_succ_lt_succ hk), BitVec.getLsbD_concat_succ]

theorem lfsrClock_toNat (l : BitVec 23) :
    (lfsrClock l).toNat = (2 * l.toNat + (l.getLsbD 22 ^^ l.getLsbD 17).toNat) % 2 ^ 23 := by
  rw [lfsrClock_eq_concat, BitVec.toNat_setWidth, BitVec.toNat_concat, Nat.mul_comm]

theorem noise16_getLsbD (l : BitVec 23) (k : Nat) :
    (noise16 l).getLsbD k = if k < 8 then false else
      (((((((((BitVec.ofBool (l.getLsbD 20)).concat (l.getLsbD 18)).concat (l.getLsbD 14)).concat (l.getLsbD 11)).concat
        (l.getLsbD 9)).concat (l.getLsbD 5)).concat (l.getLsbD 2)).concat (l.getLsbD 0)).getLsbD (k - 8)) := by
  simp only [noise16, BitVec.append_ofBool, BitVec.getLsbD_append, BitVec.getLsbD_zero]

/-! ### Waveforms (R175, R180, R181, R183) -/

/-- Inverting bit 23 adds it or takes it away. -/
theorem xor_bit23_toNat (x : BitVec 24) :
    (x ^^^ 0x800000#24).toNat = if x.toNat < 2 ^ 23 then x.toNat + 2 ^ 23 else x.toNat - 2 ^ 23 := by
  have bound : x.toNat < 2 ^ 24 := x.isLt
  have low : (x.toNat ^^^ 2 ^ 23) % 2 ^ 23 = x.toNat % 2 ^ 23 := by
    rw [Nat.xor_mod_two_pow, Nat.mod_self, Nat.xor_zero]
  have high : (x.toNat ^^^ 2 ^ 23) / 2 ^ 23 = x.toNat / 2 ^ 23 ^^^ 1 := by
    rw [Nat.xor_div_two_pow, Nat.div_self (Nat.two_pow_pos 23)]
  rw [BitVec.toNat_xor, show (0x800000#24).toNat = 2 ^ 23 from rfl]
  split_ifs with below
  · have zero : x.toNat / 2 ^ 23 = 0 := by omega
    rw [zero, Nat.zero_xor] at high
    omega
  · have one : x.toNat / 2 ^ 23 = 1 := by omega
    rw [one, Nat.xor_self] at high
    omega

theorem ringed_toNat (r : VoiceRegs) (uMsb : Bool) (acc : BitVec 24) :
    (ringed r uMsb acc).toNat =
      if r.wg.getLsbD 2 = true ∧ uMsb = true then
        (if acc.toNat < 2 ^ 23 then acc.toNat + 2 ^ 23 else acc.toNat - 2 ^ 23)
      else acc.toNat := by
  simp only [ringed, ringBit, Bool.and_eq_true]
  split_ifs with inverts below
  · rw [xor_bit23_toNat, if_pos below]
  · rw [xor_bit23_toNat, if_neg below]
  · rw [BitVec.xor_zero]

theorem ringed_of_clear {r : VoiceRegs} (ring : r.wg.getLsbD 2 = false) (uMsb : Bool) (acc : BitVec 24) :
    ringed r uMsb acc = acc := by
  refine BitVec.eq_of_toNat_eq ?_
  rw [ringed_toNat, if_neg fun inverts => Bool.noConfusion (ring.symm.trans inverts.1)]

theorem tri16_toNat (t : BitVec 24) :
    (tri16 t).toNat = (if t.toNat < 2 ^ 23 then t.toNat else 2 ^ 24 - 1 - t.toNat) / 2 ^ 7 := by
  have bound : t.toNat < 2 ^ 24 := t.isLt
  have top : t.getLsbD 23 = decide (2 ^ 23 ≤ t.toNat) := BitVec.msb_eq_decide t
  rw [tri16, top, BitVec.toNat_setWidth, BitVec.toNat_ushiftRight, Nat.shiftRight_eq_div_pow]
  rcases Nat.lt_or_ge t.toNat (2 ^ 23) with below | above
  · rw [if_neg (by simpa using below), if_pos below, BitVec.toNat_setWidth]
    omega
  · rw [if_pos (by simpa using above), if_neg (Nat.not_lt_of_le above), BitVec.toNat_setWidth, BitVec.toNat_not]
    omega

theorem accHigh_eq (acc : BitVec 24) : accHigh acc = BitVec.ofNat 16 (acc.toNat / 256) := by
  rw [accHigh, BitVec.extractLsb', Nat.shiftRight_eq_div_pow]

theorem pulseThreshold_toNat (r : VoiceRegs) : (pulseThreshold r).toNat = r.pw.toNat * 16 := by
  rw [pulseThreshold, BitVec.toNat_append, BitVec.toNat_ofNat, Nat.zero_mod, Nat.or_zero, Nat.shiftLeft_eq]

theorem pulseThreshold_eq (r : VoiceRegs) : pulseThreshold r = BitVec.ofNat 16 (r.pw.toNat * 16) := by
  rw [← pulseThreshold_toNat, BitVec.ofNat_toNat, BitVec.setWidth_eq]

theorem defaultPulseShape_high {a : PulseArgs} (h : a.thr.toNat ≤ a.s.toNat) : defaultPulseShape a = 0xFFFF#16 := if_pos h

theorem defaultPulseShape_low {a : PulseArgs} (h : a.s.toNat < a.thr.toNat) : defaultPulseShape a = 0#16 :=
  if_neg (Nat.not_le_of_lt h)

theorem defaultPulseShape_eq_high_iff (a : PulseArgs) : defaultPulseShape a = 0xFFFF#16 ↔ a.thr.toNat ≤ a.s.toNat := by
  refine ⟨fun high => Nat.le_of_not_lt fun below => ?_, defaultPulseShape_high⟩
  rw [defaultPulseShape_low below] at high
  exact absurd high (by decide)

theorem combineMask_getLsbD (k : Nat) : (0xFFF0#16).getLsbD k = decide (4 ≤ k ∧ k < 16) := by
  rcases Nat.lt_or_ge k 16 with inside | outside
  · interval_cases k <;> rfl
  · rw [BitVec.getLsbD_of_ge _ _ outside, eq_comm, decide_eq_false_iff_not]
    omega

/-- Inside the word, a component that is not selected leaves the AND as it is. -/
theorem component_getLsbD {k : Nat} (inside : k < 16) (selected : Bool) (x : BitVec 16) :
    (if selected then x else 0xFFFF#16).getLsbD k = true ↔ (selected = true → x.getLsbD k = true) := by
  have ones : (0xFFFF#16).getLsbD k = true := by
    rw [show 0xFFFF#16 = BitVec.allOnes 16 from rfl, BitVec.getLsbD_allOnes, decide_eq_true inside]
  cases selected <;> simp [ones]

theorem defaultCombine_getLsbD (a : CombineArgs) (k : Nat) :
    (defaultCombine a).getLsbD k = true ↔
      4 ≤ k ∧ k < 16 ∧ (a.wf.getLsbD 0 = true → a.tri16.getLsbD k = true) ∧
        (a.wf.getLsbD 1 = true → a.saw16.getLsbD k = true) ∧ (a.wf.getLsbD 2 = true → a.pulse16.getLsbD k = true) := by
  rw [defaultCombine, BitVec.getLsbD_and, combineMask_getLsbD, Bool.and_eq_true, decide_eq_true_eq, and_comm, and_assoc]
  refine and_congr_right fun _ => and_congr_right fun inside => ?_
  rw [BitVec.getLsbD_and, BitVec.getLsbD_and, Bool.and_eq_true, Bool.and_eq_true, component_getLsbD inside,
    component_getLsbD inside, component_getLsbD inside, and_assoc]

/-! ### Selection (R184) -/

section
variable (c : Config) (held noise tri saw pulse : BitVec 16)

/-- The selection by the field's number. -/
theorem waveSelect_waveField (r : VoiceRegs) :
    waveSelect c (waveField r) held noise tri saw pulse =
      let wf := r.wg.toNat / 16
      if wf = 0 then held
      else if 8 ≤ wf then (if wf = 8 then noise else 0#16)
      else if wf = 1 then tri
      else if wf = 2 then saw
      else if wf = 4 then pulse
      else combine c (BitVec.ofNat 4 wf) tri saw pulse := by
  have top : (waveField r).getLsbD 3 = decide (8 ≤ r.wg.toNat / 16) := by
    rw [← waveField_toNat]
    exact BitVec.msb_eq_decide (waveField r)
  simp only [waveSelect, top, BitVec.toNat_eq, waveField_toNat, BitVec.toNat_ofNat, ← waveField_eq, decide_eq_true_eq]

variable {r : VoiceRegs}

theorem waveSelect_of_held (h : r.wg.toNat / 16 = 0) : waveSelect c (waveField r) held noise tri saw pulse = held := by
  rw [waveSelect_waveField, h]
  rfl

theorem waveSelect_of_tri (h : r.wg.toNat / 16 = 1) : waveSelect c (waveField r) held noise tri saw pulse = tri := by
  rw [waveSelect_waveField, h]
  rfl

theorem waveSelect_of_saw (h : r.wg.toNat / 16 = 2) : waveSelect c (waveField r) held noise tri saw pulse = saw := by
  rw [waveSelect_waveField, h]
  rfl

theorem waveSelect_of_pulse (h : r.wg.toNat / 16 = 4) : waveSelect c (waveField r) held noise tri saw pulse = pulse := by
  rw [waveSelect_waveField, h]
  rfl

theorem waveSelect_of_combined (h : r.wg.toNat / 16 = 3 ∨ r.wg.toNat / 16 = 5 ∨ r.wg.toNat / 16 = 6 ∨ r.wg.toNat / 16 = 7) :
    waveSelect c (waveField r) held noise tri saw pulse = combine c (BitVec.ofNat 4 (r.wg.toNat / 16)) tri saw pulse := by
  rw [waveSelect_waveField]
  rcases h with h | h | h | h <;> rw [h] <;> rfl

theorem waveSelect_of_noise (h : r.wg.toNat / 16 = 8) : waveSelect c (waveField r) held noise tri saw pulse = noise := by
  rw [waveSelect_waveField, h]
  rfl

/-- The noise lock-up (R173). -/
theorem waveSelect_of_lock (h : 9 ≤ r.wg.toNat / 16) : waveSelect c (waveField r) held noise tri saw pulse = 0#16 := by
  rw [waveSelect_waveField]
  dsimp only
  rw [if_neg (by omega), if_pos (by omega), if_neg (by omega)]

/-- The held value is read under waveform field 0 alone. -/
theorem waveSelect_held_congr {wf : BitVec 4} (h : wf ≠ 0#4) (held' : BitVec 16) :
    waveSelect c wf held noise tri saw pulse = waveSelect c wf held' noise tri saw pulse := by
  rw [waveSelect, if_neg h, waveSelect, if_neg h]

end

/-! ### The collected pseudocode, cut into the sub-steps (R187) -/

/-- The line of `acc`. -/
def collectedAcc (r : VoiceRegs) (step prev : Nat) (rise : Bool) : Nat :=
  if r.wg.toNat.testBit 3 || (r.wg.toNat.testBit 1 && rise) then 0 else (prev + step) % 2 ^ 24

/-- The lines of the noise register. -/
def collectedLfsr (c : Config) (raw acc prev old : Nat) : Nat :=
  let fb := if old.testBit 22 != old.testBit 17 then 1 else 0
  if decide (c.noiseStepLimit < raw) || (acc.testBit 20 != prev.testBit 20) then (2 * old + fb) % 2 ^ 23 else old

/-- The lines of the triangle. -/
def collectedTri (r : VoiceRegs) (acc source : Nat) : Nat :=
  let t := if r.wg.toNat.testBit 2 && source.testBit 23 then (if acc < 2 ^ 23 then acc + 2 ^ 23 else acc - 2 ^ 23) else acc
  (if t < 2 ^ 23 then t else 2 ^ 24 - 1 - t) / 128

/-- The lines of the noise output. -/
def collectedNoise (lfsr : Nat) : Nat :=
  let bit := fun k w => if lfsr.testBit k then w else 0
  (bit 20 128 + bit 18 64 + bit 14 32 + bit 11 16 + bit 9 8 + bit 5 4 + bit 2 2 + bit 0 1) * 256

/-- The lines of the shapes and of `y`. -/
def collectedWave (c : Config) (r : VoiceRegs) (step acc lfsr source : Nat) (held : BitVec 16) : BitVec 16 :=
  let tri := BitVec.ofNat 16 (collectedTri r acc source)
  let saw := sawShape c (BitVec.ofNat 16 (acc / 256)) (BitVec.ofNat 24 step)
  let pulse := pulseShape c (BitVec.ofNat 16 (acc / 256)) (BitVec.ofNat 16 (r.pw.toNat * 16)) (BitVec.ofNat 24 step)
  let wf := r.wg.toNat / 16
  if wf = 0 then held
  else if 8 ≤ wf then (if wf = 8 then BitVec.ofNat 16 (collectedNoise lfsr) else 0#16)
  else if wf = 1 then tri
  else if wf = 2 then saw
  else if wf = 4 then pulse
  else combine c (BitVec.ofNat 4 wf) tri saw pulse

section
variable {c : Config} {r : VoiceRegs} {ratio : Nat} {id : VoiceId} {vs : Voices} {acc lfsr source : Nat} {y : BitVec 16}

/-- The pseudocode runs these parts in order and writes what they give. -/
theorem oscTickCollected_eq
    (hacc : collectedAcc r (stepRaw c r ratio % 2 ^ 24) (vs.get id).acc.toNat
      (syncRise (vs.get (syncSource c id))) = acc)
    (hlfsr : collectedLfsr c (stepRaw c r ratio) acc (vs.get id).acc.toNat (vs.get id).lfsr.toNat = lfsr)
    (hsource : (if syncSource c id = id then acc else (vs.get (syncSource c id)).acc.toNat) = source)
    (hy : collectedWave c r (stepRaw c r ratio % 2 ^ 24) acc lfsr source (vs.get id).prevWf = y) :
    oscTickCollected c r ratio id vs = vs.set { vs.get id with
      prevAcc := (vs.get id).acc, acc := BitVec.ofNat 24 acc, lfsr := BitVec.ofNat 23 lfsr
      prevWf := if r.wg.toNat / 16 = 0 then (vs.get id).prevWf else y, out := y } id := by
  subst hacc hlfsr hsource hy
  rfl

end

theorem collectedAcc_eq (c : Config) (r : VoiceRegs) (ratio : Nat) (rise : Bool) (acc : BitVec 24) :
    collectedAcc r (stepRaw c r ratio % 2 ^ 24) acc.toNat rise = (nextAcc r (accStep c r ratio) rise acc).toNat := by
  rw [nextAcc, apply_ite BitVec.toNat, add_accStep_toNat]
  rfl

theorem collectedLfsr_eq (c : Config) (raw : Nat) (acc prev : BitVec 24) (l : BitVec 23) :
    collectedLfsr c raw acc.toNat prev.toNat l.toNat =
      (if noiseClocked c raw acc prev then lfsrClock l else l).toNat := by
  have feedback : (if l.toNat.testBit 22 != l.toNat.testBit 17 then 1 else 0) = (l.getLsbD 22 ^^ l.getLsbD 17).toNat := by
    rw [Bool.toNat, Bool.cond_eq_ite]
    rfl
  rw [collectedLfsr, feedback, ← lfsrClock_toNat, apply_ite BitVec.toNat]
  rfl

theorem collectedTri_eq (r : VoiceRegs) (acc source : BitVec 24) :
    BitVec.ofNat 16 (collectedTri r acc.toNat source.toNat) = tri16 (ringed r (source.getLsbD 23) acc) := by
  have number : collectedTri r acc.toNat source.toNat = (tri16 (ringed r (source.getLsbD 23) acc)).toNat := by
    rw [tri16_toNat, ringed_toNat]
    simp only [collectedTri, Bool.and_eq_true]
    rfl
  rw [number, BitVec.ofNat_toNat, BitVec.setWidth_eq]

theorem noise16_toNat (l : BitVec 23) : (noise16 l).toNat = collectedNoise l.toNat := by
  have weigh (b : Bool) (w : Nat) : (if b then w else 0) = b.toNat * w := by cases b <;> simp
  have bit (k : Nat) : l.toNat.testBit k = l.getLsbD k := rfl
  simp only [noise16, collectedNoise, weigh, bit, BitVec.append_ofBool, BitVec.toNat_append, BitVec.toNat_concat,
    BitVec.toNat_ofBool, Nat.shiftLeft_eq, BitVec.toNat_ofNat, Nat.zero_mod, Nat.or_zero]
  omega

theorem collectedNoise_eq (l : BitVec 23) : BitVec.ofNat 16 (collectedNoise l.toNat) = noise16 l := by
  rw [← noise16_toNat, BitVec.ofNat_toNat, BitVec.setWidth_eq]

theorem collectedWave_eq (c : Config) (r : VoiceRegs) (ratio : Nat) (source : BitVec 24) (v : VoiceState) :
    collectedWave c r (stepRaw c r ratio % 2 ^ 24) v.acc.toNat v.lfsr.toNat source.toNat v.prevWf =
      oscWave c r ratio (source.getLsbD 23) v := by
  have step : BitVec.ofNat 24 (stepRaw c r ratio % 2 ^ 24) = accStep c r ratio :=
    BitVec.eq_of_toNat_eq (by simp [accStep])
  rw [oscWave, waveSelect_waveField, accHigh_eq, pulseThreshold_eq, ← collectedTri_eq, ← collectedNoise_eq, ← step]
  rfl

/-! ### The obligations -/

/-- Settles O50: each part of the pseudocode is the staged field of the voice after the tick. -/
theorem oscillatorTickIsTheCollectedOne : Obligations.OscillatorTickIsTheCollectedOne := by
  intro c r ratio id vs
  let ws := oscTick c r ratio id vs
  let w := ws.get id
  let u := vs.get (syncSource c id)
  let v := vs.get id
  let raw := stepRaw c r ratio
  have acc : collectedAcc r (raw % 2 ^ 24) v.acc.toNat (syncRise u) = w.acc.toNat := by
    rw [collectedAcc_eq, oscTick_acc]
  have lfsr : collectedLfsr c raw w.acc.toNat v.acc.toNat v.lfsr.toNat = w.lfsr.toNat := by
    rw [collectedLfsr_eq, oscTick_lfsr]
  have source : (if syncSource c id = id then w.acc.toNat else u.acc.toNat) = (ws.get (syncSource c id)).acc.toNat := by
    split_ifs with own
    · rw [own]
    · rw [oscTick_get_ne c r ratio id vs own]
  have wave : collectedWave c r (raw % 2 ^ 24) w.acc.toNat w.lfsr.toNat (ws.get (syncSource c id)).acc.toNat v.prevWf =
      w.out :=
    (collectedWave_eq c r ratio _ { w with prevWf := v.prevWf }).trans (oscTick_out c r ratio id vs).symm
  calc oscTick c r ratio id vs = vs.set w id := oscTick_eq_set c r ratio id vs
    _ = vs.set { v with acc := w.acc, prevAcc := w.prevAcc, lfsr := w.lfsr, prevWf := w.prevWf, out := w.out } id :=
      congrArg (vs.set · id) (oscTick_frame c r ratio id vs)
    _ = oscTickCollected c r ratio id vs := by
      rw [oscTickCollected_eq acc lfsr source wave, oscTick_prevAcc, oscTick_prevWf, BitVec.ofNat_toNat,
        BitVec.setWidth_eq, BitVec.ofNat_toNat, BitVec.setWidth_eq]

/-- Settles O38: the accumulator is `nextAcc`, with the sync input read before the tick. -/
theorem accumulatorUpdate : Obligations.AccumulatorUpdate := by
  intro c r ratio id vs u v w rise
  have acc : w.acc = if r.wg.getLsbD 3 = true ∨ (r.wg.getLsbD 1 = true ∧ rise) then 0#24
      else v.acc + accStep c r ratio := by
    simp only [w, u, v, rise, oscTick_acc, nextAcc_eq, syncRise_iff]
  refine ⟨oscTick_prevAcc c r ratio id vs, fun reset => ?_, fun runs => ?_⟩
  · rw [acc, if_pos reset]
  · rw [acc, if_neg runs]
    exact add_accStep_toNat c r ratio v.acc

/-- Settles O41: the two cases of `noiseClocked`, read off the voice after the tick; the waveform field is not read. -/
theorem noiseClockCondition : Obligations.NoiseClockCondition := by
  refine ⟨fun c r ratio id vs => ?_, fun _ _ => rfl⟩
  intro v w due
  have clocked : noiseClocked c (stepRaw c r ratio) w.acc v.acc = true ↔ due := by
    rw [noiseClocked_iff, ← oscTick_prevAcc c r ratio id vs]
    rfl
  have lfsr : w.lfsr = if noiseClocked c (stepRaw c r ratio) w.acc v.acc then lfsrClock v.lfsr else v.lfsr :=
    oscTick_lfsr c r ratio id vs
  simp only [clocked] at lfsr
  exact ⟨fun h => lfsr.trans (if_pos h), fun h => lfsr.trans (if_neg h)⟩

/-- Settles O42: the feedback bit and the shifted ones. -/
theorem noiseRegisterShift : Obligations.NoiseRegisterShift :=
  fun l => ⟨lfsrClock_getLsbD_zero l, fun _ => lfsrClock_getLsbD_succ l⟩

/-- Settles O44: the output is `waveSelect` of the field, and each field has its case. -/
theorem waveformSelection : Obligations.WaveformSelection := by
  intro c r ratio id vs ws w wf step high tri saw pulse
  have out : w.out = waveSelect c (waveField r) (vs.get id).prevWf (noise16 w.lfsr) tri saw pulse := by
    rw [oscTick_out, oscWave, accHigh_eq, pulseThreshold_eq]
    rfl
  rw [out]
  exact ⟨waveSelect_of_held _ _ _ _ _ _, waveSelect_of_tri _ _ _ _ _ _, waveSelect_of_saw _ _ _ _ _ _,
    waveSelect_of_pulse _ _ _ _ _ _, waveSelect_of_combined _ _ _ _ _ _, waveSelect_of_noise _ _ _ _ _ _,
    waveSelect_of_lock _ _ _ _ _ _⟩

/-- Settles O46: each default is the lookup in an empty list. -/
theorem defaultWaveShapes : Obligations.DefaultWaveShapes := by
  intro clock nch s thr tri saw pulse step wf c
  exact ⟨rfl, defaultPulseShape_high (a := ⟨s, thr, step⟩), defaultPulseShape_low (a := ⟨s, thr, step⟩),
    defaultPulseShape_high (a := ⟨s, 0#16, step⟩) (Nat.zero_le _),
    defaultPulseShape_eq_high_iff ⟨s, 0xFFF0#16, step⟩, defaultCombine_getLsbD ⟨c.chipModel, wf, tri, saw, pulse⟩⟩

/-- Settles O47: the memory's two cases, and the output's under fields 0 and 9 to 15. -/
theorem floatingDacHold : Obligations.FloatingDacHold := by
  intro c r ratio id vs v w
  have hold : w.prevWf = if r.wg.toNat / 16 = 0 then v.prevWf else w.out := oscTick_prevWf c r ratio id vs
  obtain ⟨held, -, -, -, -, -, lock⟩ := waveformSelection c r ratio id vs
  refine ⟨fun zero => ⟨held zero, ?_⟩, fun selected => ?_, fun locked => ⟨lock locked, ?_⟩⟩
  · rw [hold, if_pos zero]
  · rw [hold, if_neg selected]
  · rw [hold, if_neg (by omega)]
    exact lock locked

/-- Settles O48: the fold and the ring inversion as numbers; under TRI alone the output is that triangle. -/
theorem triangleFoldsTheRingedAccumulator : Obligations.TriangleFoldsTheRingedAccumulator := by
  have triangle (r : VoiceRegs) (uMsb : Bool) (acc : BitVec 24) :
      let inverts := r.wg.getLsbD 2 = true ∧ uMsb = true
      let t := if inverts then (if acc.toNat < 2 ^ 23 then acc.toNat + 2 ^ 23 else acc.toNat - 2 ^ 23) else acc.toNat
      (tri16 (ringed r uMsb acc)).toNat = (if t < 2 ^ 23 then t else 2 ^ 24 - 1 - t) / 2 ^ 7 := by
    rw [tri16_toNat, ringed_toNat]
  refine ⟨triangle, fun c r ratio id vs alone => ?_⟩
  obtain ⟨-, tri, -⟩ := waveformSelection c r ratio id vs
  exact (congrArg BitVec.toNat (tri alone)).trans (triangle r _ _)

/-- Settles O49: a step of 0 moves neither the accumulator nor bit 20 of it, so the second tick selects from the same
components; under waveform field 0 both ticks give the held value. -/
theorem zeroFrequencyHoldsTheOutput : Obligations.ZeroFrequencyHoldsTheOutput := by
  intro c r ratio id vs fq sync ring test
  have raw : stepRaw c r ratio = 0 := by rw [stepRaw, fq, BitVec.toNat_zero, Nat.zero_mul, Nat.zero_div]
  have acc (vs : Voices) : ((oscTick c r ratio id vs).get id).acc = (vs.get id).acc := by
    rw [oscTick_acc, nextAcc_of_test_sync_clear test sync, accStep_of_fq_eq_zero c fq, BitVec.add_zero]
  have lfsr (vs : Voices) : ((oscTick c r ratio id vs).get id).lfsr = (vs.get id).lfsr := by
    rw [oscTick_lfsr, acc, raw, noiseClocked_of_still, if_neg Bool.false_ne_true]
  refine ⟨acc vs, lfsr vs, ?_⟩
  by_cases field : r.wg.toNat / 16 = 0
  · obtain ⟨first, kept⟩ := (floatingDacHold c r ratio id vs).1 field
    obtain ⟨second, -⟩ := (floatingDacHold c r ratio id (oscTick c r ratio id vs)).1 field
    rw [second, kept, first]
  · have selected : waveField r ≠ 0#4 := fun zero => field ((waveField_eq_zero_iff r).mp zero)
    simp only [oscTick_out, oscWave, acc, lfsr, ringed_of_clear ring]
    exact waveSelect_held_congr _ _ _ _ _ _ selected _

/-- Settles O39: the three rows of the table. -/
theorem syncSourceSettings : Obligations.SyncSourceSettings := by
  refine fun c => ⟨fun observed v => ?_, fun predecessor => ?_, rfl⟩
  · simp only [syncSource, observed]
  · simp only [syncSource, predecessor, and_self]

/-- Settles O45: the selected noise output, and the taps bit by bit. -/
theorem noiseOutputBits : Obligations.NoiseOutputBits := by
  refine ⟨fun c r ratio id vs alone => ?_, fun l => ?_⟩
  · obtain ⟨-, -, -, -, -, noise, -⟩ := waveformSelection c r ratio id vs
    exact noise alone
  · simp only [noise16_getLsbD, BitVec.getLsbD_concat, BitVec.getLsbD_ofBool]
    exact ⟨rfl, rfl, rfl, rfl, rfl, rfl, rfl, rfl, fun k low => if_pos low⟩

end Sys2Proof.Machine
end

section
/-!
PROOFS. Mixer, filter and normalizer (43_filter_mixer.md R200 to R212): the sums of the mixer by the routing of voice 3, the
collected pseudocode of R211 by its mixer lines, and the silence of volume 0: the bus is an exact multiple of 1/256, so the
normalizer multiplies a finite number by 0.
-/

namespace Sys2Proof.Machine

/-! ### Fields of the global registers (R25) -/

theorem volume_toNat (p : Params) : (volume p).toNat = p.typeVol.toNat % 16 := low_nibble_toNat p.typeVol

theorem cutLow_eq (p : Params) : cutLow p = BitVec.ofNat 3 (p.cutL.toNat % 8) := by
  rw [← cutLow_toNat, BitVec.ofNat_toNat, BitVec.setWidth_eq]

theorem resNibble_eq (p : Params) : resNibble p = BitVec.ofNat 4 (p.res.toNat / 16) := by
  rw [resNibble, ← high_nibble_toNat, BitVec.ofNat_toNat, BitVec.setWidth_eq]

/-- A byte that 128 divides has its low seven bits clear. -/
theorem getLsbD_low_eq_false {x : BitVec 8} (h : x.toNat % 128 = 0) {k : Nat} (hk : k < 7) : x.getLsbD k = false := by
  have bit : (x.toNat % 2 ^ 7).testBit k = x.getLsbD k := by
    rw [Nat.testBit_mod_two_pow, decide_eq_true hk, Bool.true_and, BitVec.getLsbD]
  have remainder : x.toNat % 2 ^ 7 = 0 := h
  rw [← bit, remainder, Nat.zero_testBit]

/-! ### Voice 3 in the mixer (R201) -/

section
variable {p : Params} (vs : Voices)

/-- Voice 3 off and not routed: the sums are those of voices 1 and 2. -/
theorem mixVoices_of_voice3_silenced (off : voice3Off p = true) (unrouted : routeBit p .v3 = false) :
    mixVoices p vs = ⟨
      addIf (routeBit p .v2) vs.v2 (addIf (routeBit p .v1) vs.v1 F64.zero),
      addIf (!routeBit p .v2) vs.v2 (addIf (!routeBit p .v1) vs.v1 F64.zero)⟩ := by
  rw [mixVoices_eq, off, unrouted]
  rfl

/-- Voice 3 routed: it is added to the filter input, and the bus is that of voices 1 and 2. -/
theorem mixVoices_of_voice3_routed (routed : routeBit p .v3 = true) :
    mixVoices p vs = ⟨
      F64.add (addIf (routeBit p .v2) vs.v2 (addIf (routeBit p .v1) vs.v1 F64.zero)) (contribution vs.v3),
      addIf (!routeBit p .v2) vs.v2 (addIf (!routeBit p .v1) vs.v1 F64.zero)⟩ := by
  rw [mixVoices_eq, routed]
  rfl

end

/-! ### The collected pseudocode (R211) -/

/-- The lines of the filter input and of the bus. -/
def collectedMix (p : Params) (vs : Voices) : MixBus :=
  let r1 := p.res.toNat.testBit 0
  let r2 := p.res.toNat.testBit 1
  let r3 := p.res.toNat.testBit 2
  let fin := if r1 then F64.add F64.zero (contribution vs.v1) else F64.zero
  let bus := if r1 then F64.zero else F64.add F64.zero (contribution vs.v1)
  let fin := if r2 then F64.add fin (contribution vs.v2) else fin
  let bus := if r2 then bus else F64.add bus (contribution vs.v2)
  { fin := if r3 then F64.add fin (contribution vs.v3) else fin
    bus := if r3 || p.typeVol.toNat.testBit 7 then bus else F64.add bus (contribution vs.v3) }

/-- A line of the bus names the voices that are left out of it. -/
theorem addIf_not (skipped : Bool) (v : VoiceState) (x : F64) :
    addIf (!skipped) v x = if skipped then x else F64.add x (contribution v) := by
  cases skipped <;> rfl

theorem collectedMix_eq (p : Params) (vs : Voices) : collectedMix p vs = mixVoices p vs := by
  rw [mixVoices_eq, ← Bool.not_or]
  simp only [addIf_not]
  rfl

/-! ### Exact sums of contributions (R200, R201) -/

/-- `x` is a finite number of 256ths, at most `bound` of them in magnitude. -/
def Is256ths (bound : Nat) (x : F64) : Prop :=
  ∃ (n : Int) (s : Bool) (e : Fin 2047) (f : BitVec 52),
    n.natAbs ≤ bound ∧ x = .finite s e f ∧ F64.signedUnits s e f = n * 2 ^ 1066

theorem zero_is256ths : Is256ths 0 F64.zero := ⟨0, false, 0, 0#52, Nat.le_refl 0, rfl, by rw [Int.zero_mul]; rfl⟩

theorem contribution_is256ths (v : VoiceState) : Is256ths (2 ^ 23) (contribution v) := by
  obtain ⟨-, exact256⟩ := integersAndContributionsAreExact
  obtain ⟨s, e, f, finite, value⟩ := exact256 v
  refine ⟨_, s, e, f, Nat.le_of_lt (contribution_numerator_lt v), finite, ?_⟩
  have scale : (2 : Int) ^ 1074 = 2 ^ 1066 * 256 := by rw [← show (2 : Int) ^ 8 = 256 from rfl, ← pow_add]
  rw [scale, ← Int.mul_assoc] at value
  exact Int.eq_of_mul_eq_mul_right (by decide) value

theorem natAbs_mul_two_pow (z : Int) (k : Nat) : (z * 2 ^ k).natAbs = z.natAbs * 2 ^ k := by
  rw [Int.natAbs_mul, Int.natAbs_pow]
  rfl

/-- A sum of 256ths below 2^53 of them is not rounded. -/
theorem Is256ths.add {a b : Nat} {x y : F64} (hx : Is256ths a x) (hy : Is256ths b y) (small : a + b < 2 ^ 53) :
    Is256ths (a + b) (F64.add x y) := by
  obtain ⟨m, s, e, f, hm, rfl, xValue⟩ := hx
  obtain ⟨n, t, e', f', hn, rfl, yValue⟩ := hy
  have bound : (m + n).natAbs ≤ a + b := by omega
  have value : F64.signedUnits s e f + F64.signedUnits t e' f' = (m + n) * 2 ^ 1066 := by
    rw [xValue, yValue, Int.add_mul]
  unfold F64.add
  dsimp only
  rw [value]
  split
  case isTrue zero =>
    refine ⟨m + n, s && t, 0, 0#52, bound, rfl, ?_⟩
    rw [zero]
    cases s <;> cases t <;> rfl
  case isFalse =>
    have fits : (m + n).natAbs < 2 ^ 53 := Nat.lt_of_le_of_lt bound small
    obtain ⟨e'', f'', finite, units⟩ := ofQuotient_exact (decide ((m + n) * 2 ^ 1066 < 0)) (m + n).natAbs 1066 1
      Nat.one_pos fits (scaled_lt_overflowLimit Nat.one_pos fits (by decide))
    refine ⟨m + n, _, e'', f'', bound, by rw [natAbs_mul_two_pow, ← Nat.mul_one (_ * _), finite], ?_⟩
    rw [signedUnits_eq_withSign, units, ← natAbs_mul_two_pow, withSign_decide_natAbs]

theorem Is256ths.addIf {a : Nat} {x : F64} (h : Is256ths a x) (cond : Bool) (v : VoiceState)
    (small : a + 2 ^ 23 < 2 ^ 53) : Is256ths (a + 2 ^ 23) (addIf cond v x) := by
  cases cond with
  | true => exact h.add (contribution_is256ths v) small
  | false =>
    obtain ⟨n, s, e, f, hn, finite, value⟩ := h
    exact ⟨n, s, e, f, Nat.le_add_right_of_le hn, finite, value⟩

theorem mixVoices_bus_finite (p : Params) (vs : Voices) : ∃ s e f, (mixVoices p vs).bus = .finite s e f := by
  rw [mixVoices_eq]
  obtain ⟨-, s, e, f, -, finite, -⟩ := ((zero_is256ths.addIf (!routeBit p .v1) vs.v1 (by decide)).addIf
    (!routeBit p .v2) vs.v2 (by decide)).addIf (!routeBit p .v3 && !voice3Off p) vs.v3 (by decide)
  exact ⟨s, e, f, finite⟩

/-! ### Normalisation of a finite bus (R209, R210) -/

theorem two_pow_le_two_pow_mul_two {k n : Nat} (h : k ≤ n + 1) : 2 ^ k ≤ 2 ^ n * 2 := by
  rw [← Nat.pow_succ]
  exact two_pow_le h

/-- Every finite number lies below the overflow threshold. -/
theorem units_lt_overflowLimit (e : Fin 2047) (f : BitVec 52) : F64.units e f < (2 ^ 54 - 1) * 2 ^ 2044 := by
  have hf := f.isLt
  have he := e.isLt
  unfold F64.units
  split
  case isTrue =>
    have below (scale : Nat) (pos : 0 < scale) : f.toNat < (2 ^ 54 - 1) * scale := by omega
    exact below (2 ^ 2044) (by positivity)
  case isFalse =>
    have unit_le : 2 ^ (e.val - 1) ≤ 2 ^ 2044 * 2 := two_pow_le_two_pow_mul_two (by omega)
    have below (unit scale : Nat) (le : unit ≤ scale * 2) (pos : 0 < scale) :
        (2 ^ 52 + f.toNat) * unit < (2 ^ 54 - 1) * scale :=
      calc (2 ^ 52 + f.toNat) * unit ≤ (2 ^ 53 - 1) * (scale * 2) := Nat.mul_le_mul (by omega) le
        _ < (2 ^ 54 - 1) * scale := by omega
    exact below _ _ unit_le (by positivity)

/-- Dividing a finite number by a positive integer leaves it finite. -/
theorem div_ofInt_finite (s : Bool) (e : Fin 2047) (f : BitVec 52) {n : Nat} (pos : 0 < n) (exact53 : n < 2 ^ 53) :
    ∃ t e' f', F64.div (.finite s e f) (F64.ofInt n) = .finite t e' f' := by
  obtain ⟨t, e', f', divisor, value⟩ := ofInt_exact (n := n) (by rwa [Int.natAbs_natCast])
  have units : F64.units e' f' = n * 2 ^ 1074 := by rw [natAbs_signedUnits value, Int.natAbs_natCast]
  have divisor_pos : 0 < F64.units e' f' := by
    rw [units]
    positivity
  have below : F64.units e f * 2 ^ 1074 < (2 ^ 54 - 1) * 2 ^ 2044 * F64.units e' f' := by
    rw [units, ← Nat.mul_assoc]
    refine Nat.mul_lt_mul_of_pos_right ?_ (by positivity)
    exact Nat.lt_of_lt_of_le (units_lt_overflowLimit e f) (Nat.le_mul_of_pos_right _ pos)
  rw [divisor, div_finite s t e e' f f' divisor_pos]
  rcases ofQuotient_cases (s ^^ t) _ _ divisor_pos with ⟨-, e'', f'', finite, -⟩ | ⟨limit, -⟩
  · exact ⟨_, e'', f'', finite⟩
  · exact absurd limit (Nat.not_le_of_lt below)

theorem ofQuotient_zero (neg : Bool) {den : Nat} (pos : 0 < den) : F64.ofQuotient neg 0 den = .finite neg 0 0#52 := by
  have drop : F64.dropBits 0 den = 0 := by rw [F64.dropBits, Nat.zero_div]; rfl
  have round : roundHalfEven 0 (den * 2 ^ 0) = 0 := by
    rw [Nat.pow_zero, Nat.mul_one]
    simpa only [Nat.zero_mul] using roundHalfEven_mul 0 den pos
  rw [F64.ofQuotient, drop, round]
  rfl

theorem ofInt_zero : F64.ofInt 0 = F64.zero := by
  rw [F64.ofInt, Int.natAbs_zero, Nat.zero_mul]
  exact ofQuotient_zero _ Nat.one_pos

/-- A finite number times `+0.0` is a zero of its own sign. -/
theorem mul_zero_of_finite (s : Bool) (e : Fin 2047) (f : BitVec 52) :
    F64.mul (.finite s e f) F64.zero = .finite s 0 0#52 := by
  have units : F64.units 0 0#52 = 0 := rfl
  rw [F64.mul, units, Nat.mul_zero, Bool.xor_false]
  exact ofQuotient_zero s oneUnits_pos

theorem outputScale_range_of_configWf {c : Config} (h : configWf c = true) :
    0 < c.outputScale ∧ c.outputScale < 2 ^ 53 := by
  simp only [configWf, Bool.and_eq_true, decide_eq_true_eq] at h
  obtain ⟨⟨⟨-, pos⟩, exact53⟩, -⟩ := h
  exact ⟨pos, exact53⟩

theorem normalise_of_volume_zero {c : Config} (legal : configWf c = true) {p : Params} (silent : (volume p).toNat = 0)
    (s : Bool) (e : Fin 2047) (f : BitVec 52) : ∃ neg, normalise c p (.finite s e f) = .finite neg 0 0#52 := by
  obtain ⟨pos, exact53⟩ := outputScale_range_of_configWf legal
  obtain ⟨t, e', f', finite⟩ := div_ofInt_finite s e f pos exact53
  refine ⟨t, ?_⟩
  rw [normalise, finite, silent, Nat.cast_zero, ofInt_zero, mul_zero_of_finite]

/-- With the modes off the filter does not reach the bus. -/
theorem modeSum_of_modes_off {p : Params} (hp : hpBit p = false) (bp : bpBit p = false) (lp : lpBit p = false)
    (t : FilterTaps) (bus : F64) : modeSum p t bus = bus := by
  rw [modeSum, hp, bp, lp]
  rfl

theorem mixSample_of_modes_off {p : Params} (hp : hpBit p = false) (bp : bpBit p = false) (lp : lpBit p = false)
    (c : Config) (e : EngineState) (vs : Voices) (f : FilterState) :
    mixSample c p e vs f = normalise c p (mixVoices p vs).bus := by
  rw [mixSample, modeSum_of_modes_off hp bp lp]

/-! ### The obligations -/

/-- Settles O53: neither sum has voice 3 as an operand in the first case, nor the type/volume byte in the second. -/
theorem voiceThreeOffSilencesOnlyTheUnrouted : Obligations.VoiceThreeOffSilencesOnlyTheUnrouted := by
  refine fun p vs v b => ⟨fun off unrouted => ?_, fun routed => ?_⟩
  · rw [mixVoices_of_voice3_silenced _ off unrouted, mixVoices_of_voice3_silenced _ off unrouted]
  · have kept : routeBit { p with typeVol := b } .v3 = true := routed
    rw [mixVoices_of_voice3_routed vs kept, mixVoices_of_voice3_routed vs routed]
    rfl

/-- Settles O55: the sample is a finite bus, divided by the scale and multiplied by 0. -/
theorem volumeZeroIsSilent : Obligations.VolumeZeroIsSilent := by
  intro n s init legal low
  have clear {k : Nat} (hk : k < 7) : s.params.typeVol.getLsbD k = false := getLsbD_low_eq_false low hk
  have silent : (volume s.params).toNat = 0 := by
    rw [volume_toNat]
    omega
  obtain ⟨t, e, f, bus⟩ := mixVoices_bus_finite s.params (tickState s).voices
  obtain ⟨neg, zero⟩ := normalise_of_volume_zero legal silent t e f
  refine ⟨_, _, neg, exec_tick_of_init init n, rfl, ?_⟩
  calc mixSample s.cfg s.params s.engine (tickState s).voices s.filter
      = normalise s.cfg s.params (mixVoices s.params (tickState s).voices).bus :=
        mixSample_of_modes_off (clear (by decide)) (clear (by decide)) (clear (by decide)) _ _ _ _
    _ = .finite neg 0 0#52 := by rw [bus, zero]

/-- Settles O56: the mixer's lines are `mixVoices`, the fields are those of their bytes, and the rest is line for line the
staged recurrence, mode sum and normalizer. -/
theorem mixerIsTheCollectedOne : Obligations.MixerIsTheCollectedOne := by
  intro c p e vs f
  rw [mixSample, nextFilter, filterTaps, ← collectedMix_eq, cutoffArgs, cutLow_eq, resNibble_eq, normalise, volume_toNat]
  rfl

/-- Settles O54: the tick's filter state and sample are the recurrence, the mode sum and the normalizer, with `VOL` the
remainder of its byte. -/
theorem sampleSumsModesAndNormalises : Obligations.SampleSumsModesAndNormalises := by
  intro n s init
  refine ⟨_, _, exec_tick_of_init init n, rfl, rfl, rfl, ?_⟩
  rw [← volume_toNat]
  rfl

end Sys2Proof.Machine
end

section
/-!
PROOFS. TICK as a whole and the sample rate (44_tick.md R230 to R239): what a TICK answers with and without an initialised
block, the frame counter at its period and below it, the parts of S that the filter and the sample read, and the engine's
constants as a function of the rate alone.
-/

namespace Sys2Proof.Machine

/-! ### The constants of a rate (R24, R112, R239) -/

/-- The constants are overwritten together, so the last rate set decides them all. -/
theorem withRate_withRate (c : Config) (m n : BitVec 24) (e : EngineState) :
    (e.withRate c m).withRate c n = e.withRate c n := rfl

/-- The invariant says of an initialised engine that its constants are those of its rate. -/
theorem EngineInv.withRate_sampleRate {c : Config} {e : EngineState} (h : EngineInv c e) (init : e.init = true) :
    e.withRate c e.sampleRate = e := by
  rw [EngineState.withRate, ← h.ratio_eq init, ← h.kc_eq init]

theorem setSampleRate_setSampleRate (m n : BitVec 24) (s : State) :
    setSampleRate n (setSampleRate m s) = setSampleRate n s :=
  congrArg (setEngine · s) (withRate_withRate s.cfg m n s.engine)

theorem Inv.setSampleRate_current {s : State} (h : Inv s) (init : s.engine.init = true) :
    setSampleRate s.engine.sampleRate s = s := by
  rw [setSampleRate, h.engine.withRate_sampleRate init, setEngine]

/-! ### What a TICK answers (R230, R231) -/

theorem exec_tick_of_not_init {s : State} (h : s.engine.init = false) (n : Operand) :
    exec (.tick n) s = .next (raiseConfigError .notInitialized (wordOf 0x80#8 n) s) :=
  if_neg (ne_true_of_eq_false h)

theorem tickState_outputs (s : State) :
    (tickState s).outputs =
      ⟨mixSample s.cfg s.params s.engine (tickState s).voices s.filter, frameWraps s.engine⟩ :: s.outputs := rfl

/-! ### The frame counter (R236) -/

theorem frameTick_of_wraps {e : EngineState} (h : framePeriod e ≤ e.frame + 1) :
    (frameTick e).frame = 0 ∧ frameWraps e = true :=
  ⟨if_pos h, decide_eq_true h⟩

theorem frameTick_of_below {e : EngineState} (h : e.frame + 1 < framePeriod e) :
    (frameTick e).frame = e.frame + 1 ∧ frameWraps e = false :=
  ⟨if_neg (Nat.not_le_of_lt h), decide_eq_false (Nat.not_le_of_lt h)⟩

/-! ### The filter and the sample read no frame counter (R237) -/

section
variable (c : Config) (p : Params) (e : EngineState) (frame : Nat) (vs : Voices) (f : FilterState)

/-- Of S the filter reads the rate and its constants. -/
theorem cutoffArgs_setFrame : cutoffArgs c p { e with frame := frame } = cutoffArgs c p e := rfl

theorem filterTaps_setFrame : filterTaps c p { e with frame := frame } vs f = filterTaps c p e vs f := by
  rw [filterTaps, cutoffArgs_setFrame, filterTaps]

theorem nextFilter_setFrame : nextFilter c p { e with frame := frame } vs f = nextFilter c p e vs f := by
  rw [nextFilter, filterTaps_setFrame, nextFilter]

theorem mixSample_setFrame : mixSample c p { e with frame := frame } vs f = mixSample c p e vs f := by
  rw [mixSample, filterTaps_setFrame, mixSample]

end

/-- A state under another frame counter, other earlier outputs and other pending commands. -/
def setUnread (frame : Nat) (outs : List TickOutput) (ws : List CmdWord) (s : State) : State :=
  { s with engine := { s.engine with frame := frame }, outputs := outs, stream := ws }

section
variable (frame : Nat) (outs : List TickOutput) (ws : List CmdWord) (s : State)

/-- Of S the voices read the clock ratio alone. -/
theorem tickState_setUnread_voices : (tickState (setUnread frame outs ws s)).voices = (tickState s).voices := rfl

theorem tickState_setUnread_filter : (tickState (setUnread frame outs ws s)).filter = (tickState s).filter :=
  nextFilter_setFrame s.cfg s.params s.engine frame (tickState s).voices s.filter

theorem mixSample_setUnread :
    mixSample s.cfg s.params (setUnread frame outs ws s).engine (tickState (setUnread frame outs ws s)).voices s.filter =
      mixSample s.cfg s.params s.engine (tickState s).voices s.filter :=
  mixSample_setFrame s.cfg s.params s.engine frame (tickState s).voices s.filter

end

/-! ### The obligations -/

/-- Settles O20: the current rate's constants are in place already, and a second rate overwrites all that the first wrote. -/
theorem sampleRateRoundTrip : Obligations.SampleRateRoundTrip := by
  intro n s inv init positive
  have current : s.engine.sampleRate ≠ 0#24 := inv.engine.rate_pos init
  have restored : setSampleRate s.engine.sampleRate s = s := inv.setSampleRate_current init
  refine ⟨?_, setSampleRate n s, exec_setSr_of_ne_zero positive s, ?_⟩
  · rw [exec_setSr_of_ne_zero current, restored]
  · rw [exec_setSr_of_ne_zero current, setSampleRate_setSampleRate, restored]

/-- Settles O21: the recorded word is TICK's key over its VALUE. -/
theorem tickBeforeResetRecordsTheError : Obligations.TickBeforeResetRecordsTheError :=
  ⟨fun n _ before => exec_tick_of_not_init before n, rfl⟩

/-- Settles O22: `voicesTick` is the three voices' ticks in order, each its envelope and then its oscillator. -/
theorem tickRunsTheVoicesInOrder : Obligations.TickRunsTheVoicesInOrder := by
  intro n s init k a1 a b1 b d1 d wraps
  have first : voiceTick s.cfg s.params k .v1 s.voices = a := rfl
  have second : voiceTick s.cfg s.params k .v2 a = b := rfl
  have third : voiceTick s.cfg s.params k .v3 b = d := rfl
  have voices : voicesTick s.cfg s.params k s.voices = d := by rw [voicesTick, first, second, third]
  rw [exec_tick_of_init init, tickState, voices]
  rfl

/-- Settles O23: the one output in front, which each channel below NCH receives. -/
theorem tickEmitsOneSampleOnEveryChannel : Obligations.TickEmitsOneSampleOnEveryChannel :=
  fun n s init => ⟨_, _, exec_tick_of_init init n, tickState_outputs s, fun _ => rfl⟩

/-- Settles O24: the engine after a TICK is `frameTick` of the one before, and the marker of its output is `frameWraps`. -/
theorem frameCounterWrapsAtItsPeriod : Obligations.FrameCounterWrapsAtItsPeriod :=
  fun n s init => ⟨_, _, exec_tick_of_init init n, tickState_outputs s, frameTick_of_wraps, frameTick_of_below⟩

/-- Settles O25: the two states differ in what `setUnread` sets, and VALUE is no part of an initialised TICK's answer. -/
theorem frameCounterFeedsNoSample : Obligations.FrameCounterFeedsNoSample :=
  fun n m s frame outs ws init =>
    ⟨_, _, _, _, exec_tick_of_init init n, exec_tick_of_init (s := setUnread frame outs ws s) init m,
      (tickState_setUnread_voices frame outs ws s).symm, (tickState_setUnread_filter frame outs ws s).symm,
      tickState_outputs s, tickState_outputs (setUnread frame outs ws s), (mixSample_setUnread frame outs ws s).symm⟩

end Sys2Proof.Machine
end

section
/-!
PROOFS. Faults and the run (60_exceptions.md R250 to R253, R259): what a step answers once a fault is recorded and with no
command pending, the two commands that record a fault, and the run in which neither occurs. That run's invariant is
`SafeRun`: no command clears `S.init` or writes the stream, so a safe stream stays safe.
-/

namespace Sys2Proof.Machine

/-! ### What a step answers when it applies no command (R252, R259) -/

theorem step_of_fault {s : State} {r : FaultRecord} (recorded : s.engine.fault = some r) :
    step s = .fault (.configError r.cause) := by
  simp only [step, recorded]

theorem step_of_no_command {s : State} (running : s.engine.fault = none) (idle : s.stream = []) : step s = .next s := by
  simp only [step, fetch, running, idle]

/-! ### What a command does to `S.init` and `S.fault` (R250, R251) -/

theorem exec_init {i : Instr} {s t : State} (h : exec i s = .next t) : t.engine.init = s.engine.init := by
  rcases exec_cases h with ⟨-, p, rfl⟩ | ⟨n, -, -, rfl⟩ | ⟨n, -, -, rfl⟩ | ⟨n, -, -, rfl⟩ | ⟨n, -, -, rfl⟩ <;> rfl

/-- Once the block is initialised, only a sample rate of 0 records a fault. -/
theorem exec_fault {i : Instr} {s t : State} (h : exec i s = .next t) (init : s.engine.init = true)
    (no_zero : i ≠ .setSr 0#24) : t.engine.fault = s.engine.fault := by
  rcases exec_cases h with ⟨-, p, rfl⟩ | ⟨n, -, -, rfl⟩ | ⟨n, rate, zero, -⟩ | ⟨n, -, -, rfl⟩ | ⟨n, -, before, -⟩
  · rfl
  · rfl
  · exact absurd (zero ▸ rate) no_zero
  · rfl
  · exact absurd init (ne_true_of_eq_false before)

/-! ### The run that raises no fault (R250, R253) -/

theorem SafeRun.consume {s : State} {w : CmdWord} {rest : List CmdWord} (h : SafeRun s) (head : s.stream = w :: rest) :
    SafeRun { s with stream := rest } :=
  ⟨h.initialised, h.no_fault, fun v later => h.no_zero v (head ▸ List.mem_cons_of_mem w later)⟩

theorem SafeRun.exec {i : Instr} {s t : State} (h : SafeRun s) (no_zero : i ≠ .setSr 0#24) (he : exec i s = .next t) :
    SafeRun t where
  initialised := (exec_init he).trans h.initialised
  no_fault := (exec_fault he h.initialised no_zero).trans h.no_fault
  no_zero := exec_stream he ▸ h.no_zero

/-! ### The obligations -/

/-- Settles O9: the step looks at the fault record first and at the stream second. -/
theorem faultOrEmptyStreamAppliesNothing : Obligations.FaultOrEmptyStreamAppliesNothing :=
  fun _ => ⟨fun _ recorded => step_of_fault recorded, step_of_no_command⟩

/-- Settles O60: the step holds the state, or applies the head of the stream, which is no SET_SR 0, and every command
answers. -/
theorem steadyOperationNeverFaults : Obligations.SteadyOperationNeverFaults := by
  intro s h
  rcases fetch_cases s with ⟨idle, -⟩ | ⟨w, rest, head, -⟩
  · exact ⟨s, step_of_no_command h.no_fault idle, h⟩
  · have no_zero : decode w ≠ .setSr 0#24 := h.no_zero w (head ▸ List.mem_cons_self)
    obtain ⟨t, answer⟩ := exec_answers (decode w) { s with stream := rest }
    exact ⟨t, (step_cons h.no_fault head).trans answer, (h.consume head).exec no_zero answer⟩

end Sys2Proof.Machine
end

section
/-!
PROOFS. Reset and the state that only a TICK or a reset moves (70_reset_and_hazards.md R271 to R274): a command other than
TICK writes P alone or S alone, the noise register of R273 locks up only at 0, and a reset at a positive rate replaces
P, V, F and S whole.
-/

namespace Sys2Proof.Machine

/-- A command other than TICK writes the parameter registers alone, or the engine with its frame counter and `S.init` kept. -/
theorem exec_of_not_tick {i : Instr} {s : State} (h : ∀ n, i ≠ .tick n) :
    (∃ p, exec i s = .next (setParams p s)) ∨
    ∃ e, exec i s = .next (setEngine e s) ∧ e.frame = s.engine.frame ∧ e.init = s.engine.init := by
  obtain ⟨t, answer⟩ := exec_answers i s
  rcases exec_cases answer with ⟨-, p, rfl⟩ | ⟨n, -, -, rfl⟩ | ⟨n, -, -, rfl⟩ | ⟨n, tick, -⟩ | ⟨n, tick, -⟩
  · exact .inl ⟨p, answer⟩
  · exact .inr ⟨s.engine.withRate s.cfg n, answer, rfl, rfl⟩
  · exact .inr ⟨{ s.engine with fault := some ⟨.sampleRateNotPositive, .command (wordOf 0x50#8 n)⟩ }, answer, rfl, rfl⟩
  · exact absurd tick (h n)
  · exact absurd tick (h n)

/-! ### The obligations -/

/-- Settles O43: the shift and the feedback bit together show every bit of the register. -/
theorem noiseRegisterLocksOnlyAtZero : Obligations.NoiseRegisterLocksOnlyAtZero :=
  lfsrClock_eq_zero_iff

/-- Settles O15: neither a write of P nor one of S that keeps the frame counter and `S.init` reaches the fields listed. -/
theorem onlyTickAdvancesTheSound : Obligations.OnlyTickAdvancesTheSound := by
  intro i s not_tick
  rcases exec_of_not_tick not_tick with ⟨p, answer⟩ | ⟨e, answer, frame, init⟩
  · exact ⟨setParams p s, answer, rfl, rfl, rfl, rfl, rfl, rfl, rfl⟩
  · exact ⟨setEngine e s, answer, rfl, rfl, frame, init, rfl, rfl, rfl⟩

/-- Settles O57: at a rate of 0 the fault is recorded and `S.init` cleared; at a positive rate the new state is given whole
and has no fault, so a step applies the stream's head. -/
theorem resetSetsEveryField : Obligations.ResetSetsEveryField := by
  intro c rate s
  rcases hostReset_cases c rate s with ⟨zero, failed⟩ | ⟨positive, whole⟩
  · rw [failed]
    exact ⟨fun positive => absurd zero positive, fun _ => ⟨rfl, rfl⟩⟩
  · rw [whole]
    exact ⟨fun _ => ⟨rfl, rfl, rfl, rfl, rfl, fun _ _ head => step_cons rfl head⟩, fun zero => absurd zero positive⟩

end Sys2Proof.Machine
end

section
/-!
PROOFS. Decoding of encoded commands and the byte writes of a voice (30_encoding.md R81 to R83, 40_parameter_writes.md R104
to R106). A command's word is `wordOf` of its key and operand, so it decodes to what its key selects.
-/

namespace Sys2Proof

open Sys2Proof.Machine

theorem unlisted_of_nop_wf {key : Key} {n : Operand} (wf : (Instr.nop key n).wf = true) :
    listedKeys.contains key = false :=
  (Bool.not_eq_true' _).mp wf

/-! ### The obligations -/

/-- Settles O1: a command other than NOP has its own row of the key map, and the key of a well-formed NOP has none. -/
theorem decodeInvertsEncode : Obligations.DecodeInvertsEncode := by
  intro i wf
  cases i with
  | nop key n => exact (decode_wordOf key n).trans (decodeKey_unlisted key n (unlisted_of_nop_wf wf))
  | _ => exact decode_wordOf _ _

/-- Settles O6: each written word is `wordOf` of the key and the operand beside it. -/
theorem writtenWordsDecode : Obligations.WrittenWordsDecode :=
  ⟨decode_wordOf 0x10#8 0x11000#24, decode_wordOf 0x30#8 0xFFFF#24, decode_wordOf 0x21#8 0x1800#24,
    decode_wordOf 0x12#8 0x321#24, decode_wordOf 0x33#8 0xF0#24, decode_wordOf 0x24#8 0xA5#24,
    decode_wordOf 0x40#8 0xFF#24, decode_wordOf 0x41#8 0x80#24, decode_wordOf 0x42#8 0x107#24,
    decode_wordOf 0x43#8 0x1F#24, decode_wordOf 0x50#8 44100#24, decode_wordOf 0x80#8 0#24,
    decode_wordOf 0x15#8 1#24, decode_wordOf 0xFF#8 0xFFFFFF#24⟩

/-- Settles O12: the write of one register of one voice, the masked value as a remainder. -/
theorem voiceByteWritesStoreLow8Bits : Obligations.VoiceByteWritesStoreLow8Bits := by
  intro n s
  have write (f : VoiceField) (id : VoiceId) :
      exec (voiceWrite f id n) s = .next (setParams (s.params.setRegs (f.store n (s.params.regs id)) id) s) :=
    exec_write (.voice f id) n s
  rw [← maskTo_eq_ofNat_mod]
  exact ⟨⟨write .wg .v1, write .wg .v2, write .wg .v3⟩, ⟨write .ad .v1, write .ad .v2, write .ad .v3⟩,
    ⟨write .sr .v1, write .sr .v2, write .sr .v3⟩⟩

end Sys2Proof
end

section
/-!
PROOFS. Which way a level moves in a tick (41_envelope.md R139 to R143), and the frames of the two halves of a voice's tick
(the heads of 41_envelope.md and 42_oscillator.md). Both are said of the step logic first, then of a crossing and the tick.
-/

namespace Sys2Proof.Machine

/-! ### The level follows the attack flag -/

/-- From `v` to `w` the level rises only if `v` is in attack, and falls only if it is not. -/
structure LevelFollowsAttack (v w : VoiceState) : Prop where
  rise : v.env.toNat < w.env.toNat → v.attackF = true
  fall : w.env.toNat < v.env.toNat → v.attackF = false

section
variable {v w : VoiceState}

theorem LevelFollowsAttack.of_env_eq (same : w.env = v.env) : LevelFollowsAttack v w :=
  ⟨fun rise => by simp [same] at rise, fun fall => by simp [same] at fall⟩

theorem LevelFollowsAttack.of_attack (attack : v.attackF = true) (up : v.env.toNat ≤ w.env.toNat) :
    LevelFollowsAttack v w :=
  ⟨fun _ => attack, fun fall => absurd fall (Nat.not_lt_of_le up)⟩

theorem LevelFollowsAttack.of_not_attack (attack : v.attackF = false) (down : w.env.toNat ≤ v.env.toNat) :
    LevelFollowsAttack v w :=
  ⟨fun rise => absurd rise (Nat.not_lt_of_le down), fun _ => attack⟩

end

theorem le_envUp (step : Nat) (env : BitVec 8) : env.toNat ≤ (envUp step env).toNat := by
  rw [envUp_toNat]
  omega

theorem envDown_le (step : Nat) (env : BitVec 8) : (envDown step env).toNat ≤ env.toNat := by
  rw [envDown_toNat]
  exact Nat.sub_le _ _

theorem stepLogic_levelFollowsAttack (r : VoiceRegs) (step : Nat) (v : VoiceState) :
    LevelFollowsAttack v (stepLogic r step v) := by
  rcases stepLogic_cases r step v with same | ⟨-, attack, up⟩ | ⟨-, attack, down⟩
  · rw [same]
    exact .of_env_eq rfl
  · rw [up]
    exact .of_attack attack (le_envUp step v.env)
  · rw [down]
    exact .of_not_attack attack (envDown_le step v.env)

theorem crossed_levelFollowsAttack (c : Config) (r : VoiceRegs) (eff step : Nat) (v : VoiceState) :
    LevelFollowsAttack v (crossed c r eff step v) := by
  rcases crossed_cases c r eff step v with logic | ⟨-, counts⟩
  · rw [logic]
    exact { stepLogic_levelFollowsAttack r step { v with rc := v.rc - eff } with }
  · rw [counts]
    exact .of_env_eq rfl

theorem envAdvance_env (c : Config) (r : VoiceRegs) (ratio : Nat) (v : VoiceState) :
    (envAdvance c r ratio v).env = v.env :=
  (gateEdge_frame r v).1

theorem envTick_levelFollowsAttack (c : Config) (r : VoiceRegs) (ratio : Nat) (v : VoiceState) :
    LevelFollowsAttack (envAdvance c r ratio v) (envTick c r ratio v) := by
  rcases envTick_cases c r ratio v with advance | ⟨eff, step, -, crossing⟩
  · exact .of_env_eq (by rw [advance])
  · rw [crossing]
    exact crossed_levelFollowsAttack c r eff step _

/-! ### The fields an envelope tick keeps -/

/-- The fields of a voice that belong to its oscillator. -/
def oscFields (v : VoiceState) : BitVec 24 × BitVec 24 × BitVec 23 × BitVec 16 × BitVec 16 :=
  (v.acc, v.prevAcc, v.lfsr, v.prevWf, v.out)

theorem oscFields_eq_iff {v w : VoiceState} :
    oscFields w = oscFields v ↔
      w.acc = v.acc ∧ w.prevAcc = v.prevAcc ∧ w.lfsr = v.lfsr ∧ w.prevWf = v.prevWf ∧ w.out = v.out := by
  simp only [oscFields, Prod.mk.injEq]

theorem oscFields_envAdvance (c : Config) (r : VoiceRegs) (ratio : Nat) (v : VoiceState) :
    oscFields (envAdvance c r ratio v) = oscFields v := by
  change oscFields (gateEdge r v) = oscFields v
  rcases gateEdge_cases r v with ⟨-, -, rises⟩ | ⟨-, -, falls⟩ | ⟨-, same⟩
  · rw [rises]
    rfl
  · rw [falls]
    rfl
  · rw [same]

theorem oscFields_stepLogic (r : VoiceRegs) (step : Nat) (v : VoiceState) :
    oscFields (stepLogic r step v) = oscFields v := by
  rcases stepLogic_cases r step v with same | ⟨-, -, up⟩ | ⟨-, -, down⟩
  · rw [same]
  · rw [up]
    rfl
  · rw [down]
    rfl

theorem oscFields_crossed (c : Config) (r : VoiceRegs) (eff step : Nat) (v : VoiceState) :
    oscFields (crossed c r eff step v) = oscFields v := by
  rcases crossed_cases c r eff step v with logic | ⟨-, counts⟩
  · rw [logic]
    exact oscFields_stepLogic r step { v with rc := v.rc - eff }
  · rw [counts]
    rfl

theorem oscFields_envTick (c : Config) (r : VoiceRegs) (ratio : Nat) (v : VoiceState) :
    oscFields (envTick c r ratio v) = oscFields v := by
  rcases envTick_cases c r ratio v with advance | ⟨eff, step, -, crossing⟩
  · rw [advance, oscFields_envAdvance]
  · rw [crossing, oscFields_crossed, oscFields_envAdvance]

/-! ### The obligations -/

/-- Settles O36: the advance keeps the level and leaves the attack flag of the gate edge; a crossing moves the level as
that flag says. -/
theorem levelRisesOnlyInAttack : Obligations.LevelRisesOnlyInAttack := by
  intro c r ratio v
  have moves := envTick_levelFollowsAttack c r ratio v
  rw [← envAdvance_env c r ratio v]
  exact ⟨moves.rise, moves.fall⟩

/-- Settles O40: no sub-step of the envelope writes an oscillator field, and the oscillator's writes are `oscTick_frame`. -/
theorem voiceTickPartsKeepTheirFrames : Obligations.VoiceTickPartsKeepTheirFrames := by
  refine ⟨fun c r ratio v => oscFields_eq_iff.mp (oscFields_envTick c r ratio v), fun c r ratio id other vs => ?_⟩
  exact ⟨oscTick_get_ne c r ratio id vs, oscTick_frame c r ratio id vs⟩

end Sys2Proof.Machine
end
